-- ==== Sys2Proof/Word.lean ====
section
/-! DEFINITION. The plain data the block works on: bytes, 16-bit power values, byte memories in canonical form, and
the captured bit row. Only what the spec treats as bits is a bit vector: cursors, offsets and counts are natural
numbers (spec 00_scope.md section 5, "Widths"; 10_state.md R28; 92_eei_decisions.md D3). -/

namespace Sys2Proof

/-- A byte of a packed row, of the line symbol buffer or of a frame (00_scope.md section 5). -/
abbrev Byte := BitVec 8

/-- A power register: 16 bits, bit 15 always 0 (10_state.md R10, R18; 30_encoding.md R58). -/
abbrev Power := BitVec 16

/-- A byte memory as (address, byte) pairs. One canonical form: addresses strictly rising, and no entry equal to
`unlistedByte`. `ROW` and `BUF` of 20_memory.md R30 are both held this way. -/
abbrev Memory := List Host.Cell

/-- What an address that is not listed reads as. For `BUF` this is the spec's own reset and start content, all 0
(10_state.md R25). For `ROW` it is the representation of a zero byte of the host's row, which the host always
supplies whole (70_reset_and_hazards.md R164). DESIGN CHOICE, log entry 2. -/
abbrev unlistedByte : Byte := 0#8

/-- One captured bit row: the packed bytes and the length in bits (20_memory.md R31, R32). `mem` is the byte
memory at packed byte addresses 0, 1, ...; the row bits are those at bit addresses below `len`. -/
structure Row where
  mem : Memory
  len : Nat
  deriving DecidableEq, Repr

end Sys2Proof
end

