-- ==== Sys2Proof/Config.lean ====
section
/-! DEFINITION. The configuration constants of spec 00_scope.md R5 and 10_state.md R20, the constraints they obey
(00_scope.md R6), and the free values the spec leaves open (92_eei_decisions.md D1, D16). -/

namespace Sys2Proof

/-- The parameters of 00_scope.md R5 that steer the block. Every one is a read-only constant, "never mutated"
(10_state.md R20; 20_memory.md R47); no step writes one. They are kept symbolic, as 00_scope.md R9 asks. -/
structure Config where
  /-- `SYNC_LEN`, the declared bit length of the sync pattern. -/
  syncLen : Nat
  /-- `SYNC_PATTERN`, `pat[0]` first (20_memory.md R34). -/
  syncPattern : List Bool
  /-- `CAP`, the capacity of the line symbol buffer in bytes. -/
  cap : Nat
  /-- `MIN_BYTES`, the least started-byte count a frame needs. -/
  minBytes : Nat
  /-- `TYPE_MARKER`, the value byte 0 of a power frame must equal; a byte, so R6 (d) holds by its type. -/
  typeMarker : Byte
  /-- `N_FIELDS`, the number of power fields; the registers of 10_state.md R10 hold up to three. -/
  nFields : Nat
  /-- `FIELD_BASE`, the byte offset of power field 0; field `k` is the bytes `FIELD_BASE + 2k` and the one after. -/
  fieldBase : Nat
  /-- The mask on the high byte of a power field, the literal 0x7F of 30_encoding.md R58, kept a parameter as
  00_scope.md R9 asks of every literal. -/
  highMask : Byte
  /-- `MODEL_LABEL`, the constant model string of the record. -/
  modelLabel : String
  /-- `IDX_W`, the width of a row index register; `none` is the unbounded case (D3). -/
  idxW : Option Nat
  /-- `MAX_LEN`, the greatest row length the host may present; `none` is no limit (D3). -/
  maxLen : Option Nat
  deriving DecidableEq, Repr

/-- R6 (e): if `IDX_W` is finite then `MAX_LEN <= 2^IDX_W - 2`. A finite `IDX_W` with no `MAX_LEN` is refused too:
DESIGN CHOICE, log entry 11. -/
def Config.indexWidthOk (c : Config) : Bool :=
  match c.idxW, c.maxLen with
  | none, _ => true
  | some w, some m => decide (m + 2 ≤ 2 ^ w)
  | some _, none => false

/-- The constraints of 00_scope.md R6; "a configuration that breaks one is outside the spec and a model refuses
it". Two checks are the model's own (log entry 14): the pattern has exactly `SYNC_LEN` bits (DEDUCED from R5's
description of it), and there is a power register for each field (DEDUCED from 10_state.md R10). -/
def Config.legal (c : Config) : Bool :=
  decide (1 ≤ c.syncLen) && decide (c.syncPattern.length = c.syncLen) &&
  decide (c.nFields ≤ 3) && decide (c.fieldBase + 2 * c.nFields ≤ c.cap) &&
  decide (1 ≤ c.minBytes) && decide (c.minBytes ≤ c.cap) && c.indexWidthOk

/-- Whether a row of this length may be presented at all (00_scope.md R5 `MAX_LEN`). -/
def Config.admitsLen (c : Config) (len : Nat) : Bool :=
  match c.maxLen with
  | none => true
  | some m => decide (len ≤ m)

/-- The greatest value a power field can hold, 32767 for the mask 0x7F (30_encoding.md R58: range "0–32767"). -/
def Config.powerMax (c : Config) : Nat := c.highMask.toNat * 256 + 255

/-- FREE VALUE (92_eei_decisions.md D1, `OPEN`): bit `k` of the canonical sync pattern, which the source never
prints. No body: nothing can prove a value of it. Log entry 1. -/
opaque Config.syncPatternBit : Nat → Bool

/-- FREE VALUE (92_eei_decisions.md D16; 60_exceptions.md R152): the `time` string the host's clock collaborator
supplies at the n-th `EMIT`, "under no law". No body. Log entry 3. -/
opaque Config.hostTime : Nat → String

/-- The canonical configuration of 00_scope.md R5, with the sync pattern's bits left free. -/
def Config.canonical : Config where
  syncLen := 45
  syncPattern := (List.range 45).map Config.syncPatternBit
  cap := 8
  minBytes := 7
  typeMarker := 0x0D#8
  nFields := 3
  fieldBase := 2
  highMask := 0x7F#8
  modelLabel := "CurrentCost TX"
  idxW := none
  maxLen := none

end Sys2Proof
end

