-- ==== Sys2Proof/Syntax.lean ====
section
/-! DEFINITION. What the block can be said to decode or perform: one constructor per row of spec/opcode_table.json
(30_encoding.md R67). The four `PAIR` rows and the two `FRAME` rows have bit encodings; the operation rows have none
("nothing selects them by a code"). -/

namespace Sys2Proof

/-- One row of the opcode table, with the operands the table gives it. An operand the table binds to a register or
a constant of the block (`start_offset` = `sync_end`, `capacity` = `CAP`, `pattern` = `SYNC_PATTERN`, `buffer` =
`buf`) is read from the state and is no argument here; their general functions are in Machine/Searcher.lean,
Machine/LineDecoder.lean and Machine/Validator.lean. -/
inductive Instr where
  /-- `PAIR_FALL`, encoding `10`: falling pair, decoded bit 0 (R52, R97). -/
  | pairFall
  /-- `PAIR_RISE`, encoding `01`: rising pair, decoded bit 1 (R52, R97). -/
  | pairRise
  /-- `PAIR_INV00`, encoding `00`: invalid pair, decoding stops (R96). -/
  | pairInv00
  /-- `PAIR_INV11`, encoding `11`: invalid pair, decoding stops (R96). -/
  | pairInv11
  /-- `FRAME_POWER`, `type r x0 a x1 b x2 c` from `F[63]` down, `type = TYPE_MARKER` (R55, R113). The operands are the
  slots of the printed layout; which bytes are power fields is the configuration's business. -/
  | framePower (r : BitVec 8) (x0 : BitVec 1) (a : BitVec 15) (x1 : BitVec 1) (b : BitVec 15)
      (x2 : BitVec 1) (c : BitVec 15)
  /-- `FRAME_OTHER`: every other value of byte 0; the 56 bits below it are not read (R112). -/
  | frameOther (tag : BitVec 8) (rest : BitVec 56)
  /-- `BIT_AT(row, index)` (R70). The operand `row` is what the host's row memory holds, `State.hostRow`: BitView is that
  memory's read port (R73). -/
  | bitAt (index : Nat)
  /-- `SEEK(row, SYNC_PATTERN, SYNC_LEN)` (R75). The row is the one lent to the invocation; in a lone call it is the
  host's row memory, log entry 22. -/
  | seek
  /-- `DECODE(row, sync_end, CAP)`, the row as for `SEEK` (R90). -/
  | decode
  /-- `VALIDATE_EXTRACT(buf, ceil(nbits/8))` (R110). -/
  | validateExtract
  /-- `DECODE_ROW(row)` (R125). -/
  | decodeRow (row : Row)
  /-- `VALIDATE_BYTES(bytes, count)`, the adapter for pre-decoded bytes (R135). -/
  | validateBytes (bytes : List Byte) (count : Nat)
  deriving DecidableEq, Repr

end Sys2Proof
end

