-- ==== Sys2Proof/WellFormed.lean ====
section
/-! DEFINITION. The canonical form of a memory and of a row, and the checks an instruction passes under a
configuration: a `FRAME_OTHER` tag differs from `TYPE_MARKER` (30_encoding.md R56), a presented row is canonical and
not longer than `MAX_LEN` (00_scope.md R5), the adapter's bytes fill `CAP` and its count is at most `CAP`
(44_decode_session.md R135). -/

namespace Sys2Proof

/-- Addresses strictly rise and no listed byte is the unlisted one. -/
def Memory.wf : Memory → Bool
  | [] => true
  | (_, b) :: [] => decide (b ≠ unlistedByte)
  | (a, b) :: (a', b') :: rest =>
      decide (b ≠ unlistedByte) && decide (a < a') && Memory.wf ((a', b') :: rest)

/-- Every listed address is below `n`. -/
def Memory.below (m : Memory) (n : Nat) : Bool := m.all fun cell => decide (cell.1 < n)

/-- A row's memory is canonical and lies in the `ceil(len / 8)` packed bytes of 20_memory.md R32. -/
def Row.wf (r : Row) : Bool := Memory.wf r.mem && Memory.below r.mem ((r.len + 7) / 8)

/-- The checks of the head of this file. -/
def wellFormed (c : Config) : Instr → Bool
  | .pairFall => true
  | .pairRise => true
  | .pairInv00 => true
  | .pairInv11 => true
  | .framePower _ _ _ _ _ _ _ => true
  | .frameOther tag _ => decide (tag ≠ c.typeMarker)
  | .bitAt _ => true
  | .seek => true
  | .decode => true
  | .validateExtract => true
  | .decodeRow row => row.wf && c.admitsLen row.len
  | .validateBytes bytes count => decide (bytes.length = c.cap) && decide (count ≤ c.cap)

end Sys2Proof
end

