-- ==== Sys2Proof/Decode.lean ====
section
/-! DEFINITION. Decoding of the two encoded formats, `PAIR` (30_encoding.md R52) and `FRAME` (R55, R56), total on
any bytes, and after it the encoder written from the same tables, with the line-code image `mc` of R66. The `OP`
rows have no encoding (R67 (c)). -/

namespace Sys2Proof

/-- Why bytes are no instruction. -/
inductive DecodeError where
  /-- One byte whose bits above the pair are not 0: a pair has two bits (R52). -/
  | pairTooWide
  /-- A byte count that no format has: `PAIR` is given as one byte, `FRAME` is eight (R50). -/
  | noFormatOfLength (n : Nat)
  deriving DecidableEq, Repr

/-- What decoding answers. -/
inductive Decoded where
  | instr (i : Instr)
  | rejected (e : DecodeError)
  deriving DecidableEq, Repr

/-- R52: the pair table. `s1` is the bit at the lower row address, `s0` the bit after it. -/
def decodePair (s1 s0 : Bool) : Instr :=
  match s1, s0 with
  | true, false => .pairFall
  | false, true => .pairRise
  | false, false => .pairInv00
  | true, true => .pairInv11

/-- R55: the fields of the 64-bit frame `F`, `F[63:56]` being byte 0. R56: byte 0 alone selects the row. -/
def decodeFrame (marker : Byte) (f : BitVec 64) : Instr :=
  if f.extractLsb' 56 8 = marker then
    .framePower (f.extractLsb' 48 8)
      (f.extractLsb' 47 1) (f.extractLsb' 32 15)
      (f.extractLsb' 31 1) (f.extractLsb' 16 15)
      (f.extractLsb' 15 1) (f.extractLsb' 0 15)
  else
    .frameOther (f.extractLsb' 56 8) (f.extractLsb' 0 56)

/-- R55: eight bytes as `F[63:0]`, byte 0 at the top. -/
def frameOfBytes (b0 b1 b2 b3 b4 b5 b6 b7 : Byte) : BitVec 64 :=
  b0 ++ b1 ++ b2 ++ b3 ++ b4 ++ b5 ++ b6 ++ b7

/-- Byte `k` of a frame, byte 0 at the top (R55). -/
def frameByte (f : BitVec 64) (k : Nat) : Byte := f.extractLsb' (8 * (7 - k)) 8

/-- Decoding of the formats as bytes: one byte holding a pair in its bits 1:0, or the eight bytes of a frame. -/
def decodeBytes (marker : Byte) : List Byte → Decoded
  | [b] =>
      if b.extractLsb' 2 6 = 0#6 then .instr (decodePair (b.getLsbD 1) (b.getLsbD 0)) else .rejected .pairTooWide
  | [b0, b1, b2, b3, b4, b5, b6, b7] => .instr (decodeFrame marker (frameOfBytes b0 b1 b2 b3 b4 b5 b6 b7))
  | bs => .rejected (.noFormatOfLength bs.length)

/-- The pair's two bits, `s1` then `s0` (R52); `none` for what is no pair. -/
def encodePair : Instr → Option (Bool × Bool)
  | .pairFall => some (true, false)
  | .pairRise => some (false, true)
  | .pairInv00 => some (false, false)
  | .pairInv11 => some (true, true)
  | .framePower _ _ _ _ _ _ _ => none
  | .frameOther _ _ => none
  | .bitAt _ => none
  | .seek => none
  | .decode => none
  | .validateExtract => none
  | .decodeRow _ => none
  | .validateBytes _ _ => none

/-- The 64 bits of a frame in the order of R55's table; `none` for what is no frame. -/
def encodeFrame (marker : Byte) : Instr → Option (BitVec 64)
  | .framePower r x0 a x1 b x2 c => some (marker ++ r ++ x0 ++ a ++ x1 ++ b ++ x2 ++ c)
  | .frameOther tag rest => some (tag ++ rest)
  | .pairFall => none
  | .pairRise => none
  | .pairInv00 => none
  | .pairInv11 => none
  | .bitAt _ => none
  | .seek => none
  | .decode => none
  | .validateExtract => none
  | .decodeRow _ => none
  | .validateBytes _ _ => none

/-- A bit as a byte's lowest bit. -/
def bitByte (b : Bool) : Byte := if b then 1#8 else 0#8

/-- The encoder: one byte for a pair, eight for a frame, nothing for an operation (R67 (c)). -/
def encode (marker : Byte) (i : Instr) : Option (List Byte) :=
  match encodePair i with
  | some (s1, s0) => some [bitByte s1 <<< 1 ||| bitByte s0]
  | none =>
    match encodeFrame marker i with
    | some f => some ((List.range 8).map (frameByte f))
    | none => none

/-- The eight bits of a byte, bit 7 first (00_scope.md section 5, "MSB first"). -/
def byteBits (b : Byte) : List Bool := (List.range 8).map fun k => b.getLsbD (7 - k)

/-- R66 (a): a data bit 1 is the symbols `0 1`, a data bit 0 is `1 0`. -/
def mcBit (d : Bool) : List Bool := [!d, d]

/-- R66 (a): the line-code image of a byte string, each byte from bit 7 down to bit 0. -/
def mc (bytes : List Byte) : List Bool := (bytes.flatMap byteBits).flatMap mcBit

/-- 00_scope.md section 6: the image of the first `n` data bits only. -/
def mcPrefix (bytes : List Byte) (n : Nat) : List Bool := ((bytes.flatMap byteBits).take n).flatMap mcBit

/-- The instruction an opcode-table word stands for, bits numbered as the table numbers them: a `PAIR` word is at
most one byte wide with `s1` in bit 1 and `s0` in bit 0, a `FRAME` word is `F[63:0]`. The marker is the canonical
0x0D, which the table's own match value uses. -/
def decodeTableWord (nbits w : Nat) : Option Instr :=
  if nbits = 64 then
    if w < 2 ^ 64 then
      match decodeBytes Config.canonical.typeMarker ((List.range 8).map (frameByte (BitVec.ofNat 64 w))) with
      | .instr i => some i
      | .rejected _ => none
    else none
  else if 2 ≤ nbits ∧ nbits ≤ 8 ∧ w < 2 ^ nbits then
    match decodeBytes Config.canonical.typeMarker [BitVec.ofNat 8 w] with
    | .instr i => some i
    | .rejected _ => none
  else none

end Sys2Proof
end

