-- ==== Sys2Proof/Machine/State.lean ====
section
/-! DEFINITION. The state of one instance of the block: the registers of 10_state.md R10, the constants and inputs
they work on, and four fields of the model's own (marked). Faults, refusals and the state after reset. -/

namespace Sys2Proof.Machine

/-- The stage register (10_state.md R11). -/
inductive Stage where
  | idle | seeking | decoding | validating | emit | drop
  deriving DecidableEq, Repr

/-- Why the decoder stopped (10_state.md R17); the register's `NONE` is `Option`'s `none`. -/
inductive StopCause where
  /-- capacity is reached (R93) -/
  | cap
  /-- the row holds no whole pair at `pos` (R94) -/
  | exhausted
  /-- an invalid pair is observed (R96) -/
  | inv
  deriving DecidableEq, Repr

/-- The three drop conditions, "the complete list" (60_exceptions.md R140); the register's `NONE` is `none`. -/
inductive DropReason where
  /-- R141 -/
  | noSync
  /-- R142 -/
  | truncated
  /-- R143 -/
  | typeMismatch
  deriving DecidableEq, Repr

/-- What the host does at a step (44_decode_session.md R133, R135; 70_reset_and_hazards.md R160, R166).
Log entry 7. -/
inductive HostInput where
  /-- no request -/
  | quiet
  /-- a start request with a row and its length (R133) -/
  | start (row : Row)
  /-- the adapter's entry with pre-decoded bytes (R135) -/
  | bypass (bytes : List Byte) (count : Nat)
  /-- the host calls an operation of the block as a function and gets the result back (30_encoding.md R65; R133;
  60_exceptions.md R151) -/
  | call (op : Instr)
  /-- the host alters its row memory (20_memory.md R49 while a row is lent) -/
  | changeRow (row : Row)
  /-- reset, in any stage (R160) -/
  | reset
  deriving DecidableEq, Repr

/-- What `validate_extract` answers (43_frame_validator_extractor.md R110). -/
inductive Verdict where
  | reject (reason : DropReason)
  | frame (power0 power1 power2 : Power)
  deriving DecidableEq, Repr

/-- What an operation called as a function gives back to the host (30_encoding.md R65). -/
inductive Answer where
  /-- `bit_at -> 0|1` (R70) -/
  | bit (b : Bool)
  /-- `seek -> Option<bit_offset>` (R75) -/
  | offset (o : Option Nat)
  /-- `decode -> (buffer, bytes_started)` (R90, R99) -/
  | buffer (buf : Memory) (started : Nat)
  /-- `validate_extract -> Reject(reason) | Frame(...)` (R110) -/
  | verdict (v : Verdict)
  deriving DecidableEq, Repr

/-- What the decoder leaves: its cursor, its count, its buffer and why it stopped (R90). -/
structure LineDecode where
  pos : Nat
  nbits : Nat
  buf : Memory
  cause : StopCause
  deriving DecidableEq, Repr

/-- The record handed to the sink (30_encoding.md R62; 44_decode_session.md R131, R132). R132 gives `rc` and `battery`
as options and no element type; `Byte` (the frame has an `rc` byte, 30_encoding.md R57) and `Bool` are the model's,
DESIGN CHOICE, log entry 23. Both fields are always absent, so no value of either type is ever held. -/
structure MeasurementRecord where
  time : String
  model : String
  power0 : Power
  power1 : Power
  power2 : Power
  rc : Option Byte
  battery : Option Bool
  deriving DecidableEq, Repr

/-- The reasons the block's model stops with a fault. -/
inductive Fault where
  /-- A row bit at an index at or beyond `len` was asked for (20_memory.md R38, 40_bitview.md R71: "undefined/fails").
  Raised by `BIT_AT`, and by a step only in states no run reaches. Safe: the model stops where no value is given. -/
  | rowOutOfRange
  /-- A pattern bit at or beyond `SYNC_LEN` was asked for (20_memory.md R30, R42). Raised by a `SEEKING` step only in
  states no run reaches (`p > SYNC_LEN`). Safe. -/
  | patOutOfRange
  /-- `DECODE` was asked for with `found = 0`, when `sync_end` "holds no meaning and must not be read"
  (10_state.md R13). Raised by `DECODE`. Safe. -/
  | syncEndUnreadable
  deriving DecidableEq, Repr

/-- The reasons the model gives a launch no meaning (92_eei_decisions.md D19). -/
inductive Refusal where
  /-- An instruction whose meaning is not written yet, by its mnemonic. Safe. -/
  | notModelled (mnemonic : String)
  /-- The configuration breaks 00_scope.md R6. Raised by every instruction and every step. Safe. -/
  | illegalConfiguration
  /-- A row longer than `MAX_LEN` was presented (00_scope.md R5). Raised by an accepted start and by `DECODE_ROW`. Safe. -/
  | rowTooLong
  /-- The adapter was given a count above `CAP` or other than `CAP` bytes (44_decode_session.md R135). Raised by
  `VALIDATE_BYTES` and by the bypass entry. Safe. -/
  | adapterInput
  /-- The lent row was changed, in its length or in a bit below it, while an invocation runs (20_memory.md R49,
  93_implementation_defined.md U3, "refuse"). Raised by `step`. Safe. -/
  | rowChangedDuringInvocation
  deriving DecidableEq, Repr

/-- One instance of the block. -/
structure State where
  /-- the configuration constants (10_state.md R20), never written -/
  cfg : Config
  /-- the `ROW` memory and `len` lent to the invocation, owned by the host and immutable until it ends (20_memory.md R30,
  R31); after it, the row it was run on -/
  row : Row
  /-- what the host's row memory holds now, which is what its read port shows (40_bitview.md R73); the lent row while
  one is lent. Log entry 22. -/
  hostRow : Row
  /-- MODEL'S OWN: what the host does at the coming steps, first first; the empty list is `quiet` for
  ever. Log entry 7. -/
  inputs : List HostInput
  /-- `stage` (R11) -/
  stage : Stage
  /-- `i`, the searcher's input cursor (R12) -/
  i : Nat
  /-- `p`, the searcher's pattern cursor (R12) -/
  p : Nat
  /-- `found` (R13) -/
  found : Bool
  /-- `sync_end` (R13) -/
  syncEnd : Nat
  /-- `pos`, the decoder's input cursor (R14) -/
  pos : Nat
  /-- `nbits`, the count of decoded bits (R14) -/
  nbits : Nat
  /-- `buf[0..CAP-1]`, the line symbol buffer (R15) -/
  buf : Memory
  /-- `stop_cause` (R17) -/
  stopCause : Option StopCause
  /-- `record_valid` (R18) -/
  recordValid : Bool
  /-- `drop_reason` (R18) -/
  dropReason : Option DropReason
  /-- `power0` (R18) -/
  power0 : Power
  /-- `power1` (R18) -/
  power1 : Power
  /-- `power2` (R18) -/
  power2 : Power
  /-- MODEL'S OWN: the `time` attached to the record presented in `EMIT` (R131), absent otherwise. Log entry 3. -/
  time : Option String
  /-- MODEL'S OWN: how many times the host's clock has been read; it indexes the free value `Config.hostTime`.
  Log entry 3. -/
  clockReads : Nat
  /-- MODEL'S OWN: what the last operation called as a function gave back: the read port's bit for `BIT_AT` (R70, R73),
  the function's value for a stage operation called while no invocation runs. Log entries 4, 6. -/
  answer : Option Answer
  deriving DecidableEq, Repr

/-- The three outcomes of a step of this machine. -/
abbrev StepResult := Host.Outcome State Fault Refusal

/-- The state after power-on reset: every register of R10 as 10_state.md R25 gives it, the canonical configuration,
no row presented (log entry 5), no host input, the model's own fields empty. -/
def State.reset : State where
  cfg := Config.canonical
  row := { mem := [], len := 0 }
  hostRow := { mem := [], len := 0 }
  inputs := []
  stage := .idle
  i := 0
  p := 0
  found := false
  syncEnd := 0
  pos := 0
  nbits := 0
  buf := []
  stopCause := none
  recordValid := false
  dropReason := none
  power0 := 0#16
  power1 := 0#16
  power2 := 0#16
  time := none
  clockReads := 0
  answer := none

end Sys2Proof.Machine
end

