-- ==== Sys2Proof/Machine/Ops.lean ====
section
/-! DEFINITION. The named operations on memory and registers: byte memories, `BufSetBit`, the guard every meaning
stands behind, the raising of a drop (the block's only exception, 60_exceptions.md R146), the emission of a record,
reset, and the start of an invocation, which is the only way out of `DROP` and `EMIT` (R147). -/

namespace Sys2Proof

/-- One byte of a memory. -/
def Memory.read (m : Memory) (a : Nat) : Byte :=
  match m with
  | [] => unlistedByte
  | (a', b) :: rest => if a' = a then b else Memory.read rest a

/-- Put a byte in front of a canonical memory whose addresses are higher; an unlisted byte is left out. -/
def Memory.cons (a : Nat) (b : Byte) (m : Memory) : Memory :=
  if b = unlistedByte then m else (a, b) :: m

/-- Write one byte, keeping the canonical form. -/
def Memory.write (m : Memory) (a : Nat) (b : Byte) : Memory :=
  match m with
  | [] => Memory.cons a b []
  | (a', b') :: rest =>
      if a < a' then Memory.cons a b ((a', b') :: rest)
      else if a = a' then Memory.cons a b rest
      else (a', b') :: Memory.write rest a b

/-- The memory that holds `bytes` from address `a` on. -/
def Memory.ofBytesAt (a : Nat) : List Byte → Memory
  | [] => []
  | b :: bs => Memory.cons a b (Memory.ofBytesAt (a + 1) bs)

/-- The memory that holds `bytes` from address 0 on. -/
def Memory.ofBytes (bytes : List Byte) : Memory := Memory.ofBytesAt 0 bytes

/-- Bit number `n` of a memory, MSB first within each byte: bit `7 - (n mod 8)` of byte `floor(n / 8)`
(20_memory.md R32 for the row, R35 for the buffer). -/
def Memory.bit (m : Memory) (n : Nat) : Bool := (Memory.read m (n / 8)).getLsbD (7 - n % 8)

/-- The byte with only the bit of MSB-first number `n` set to `d` (20_memory.md R32, R35: bit `7 - (n mod 8)`). -/
def bitInByte (n : Nat) (d : Bool) : Byte := (if d then 1#8 else 0#8) <<< (7 - n % 8)

/-- `BufSetBit(n, d)` of 20_memory.md R35: `buf[n >> 3] <- buf[n >> 3] | (d << (7 - (n & 7)))`. -/
def Memory.setBit (m : Memory) (n : Nat) (d : Bool) : Memory :=
  Memory.write m (n / 8) (Memory.read m (n / 8) ||| bitInByte n d)

/-- Pack bits MSB first from bit number `n` on (20_memory.md R32). -/
def Memory.packFrom (m : Memory) (n : Nat) : List Bool → Memory
  | [] => m
  | b :: bs => Memory.packFrom (Memory.setBit m n b) (n + 1) bs

/-- The row that holds exactly these bits (00_scope.md section 6). -/
def Row.ofBits (bits : List Bool) : Row := { mem := Memory.packFrom [] 0 bits, len := bits.length }

/-- The row given as packed bytes with its length (00_scope.md section 6). -/
def Row.ofBytes (len : Nat) (bytes : List Byte) : Row := { mem := Memory.ofBytes bytes, len := len }

/-- The row with the bit at address `a` put to `d`, made at least `a + 1` bits long: the host's side of `ROW`. -/
def Row.putBit (r : Row) (a : Nat) (d : Bool) : Row :=
  { mem := Memory.write r.mem (a / 8) ((Memory.read r.mem (a / 8) &&& ~~~(bitInByte a true)) ||| bitInByte a d),
    len := max r.len (a + 1) }

namespace Machine

/-- 00_scope.md R6: a configuration that breaks a constraint is refused, whatever is asked of the block. -/
def State.guarded (s : State) (result : StepResult) : StepResult :=
  if s.cfg.legal then result else .refused .illegalConfiguration

/-- An invocation is running (44_decode_session.md R133). -/
def State.busy (s : State) : Bool :=
  match s.stage with
  | .idle => false
  | .seeking => true
  | .decoding => true
  | .validating => true
  | .emit => false
  | .drop => false

/-- A row is lent: an invocation runs, from its start until `done` (70_reset_and_hazards.md R166). A run the adapter
began is in `VALIDATING` with `found = 0`; it is no run of `decode_row` and is lent no row (44_decode_session.md R135). -/
def State.rowLent (s : State) : Bool :=
  match s.stage with
  | .idle => false
  | .seeking => true
  | .decoding => true
  | .validating => s.found
  | .emit => false
  | .drop => false

/-- `raise Drop(reason)`, 60_exceptions.md R146: "writes `stage <- DROP`, `drop_reason <- reason` ... and writes
nothing else". -/
def raiseDrop (reason : DropReason) (s : State) : State :=
  { s with stage := .drop, dropReason := some reason }

/-- The entry to `EMIT`, 44_decode_session.md R128 and R131: the powers and `record_valid`, and the `time` the host's
clock supplies. -/
def emitRecord (p0 p1 p2 : Power) (s : State) : State :=
  { s with stage := .emit, recordValid := true, power0 := p0, power1 := p1, power2 := p2,
           time := some (Config.hostTime s.clockReads), clockReads := s.clockReads + 1 }

/-- An operation called as a function gives its value back and writes no register of 10_state.md R10. -/
def returnAnswer (a : Answer) (s : State) : State := { s with answer := some a }

/-- Every register of 10_state.md R10 at its "value after reset" (R25, R160), the constants and the host's side kept. -/
def resetRegisters (s : State) : State :=
  { s with stage := .idle, i := 0, p := 0, found := false, syncEnd := 0, pos := 0, nbits := 0, buf := [],
           stopCause := none, recordValid := false, dropReason := none,
           power0 := 0#16, power1 := 0#16, power2 := 0#16, time := none, answer := none }

/-- Every register of 10_state.md R10 at its "value when an invocation starts" (R25, R26; 70_reset_and_hazards.md
R162): the stage is `SEEKING`. -/
def startValues (s : State) : State :=
  { s with stage := .seeking, i := 0, p := 0, found := false, syncEnd := 0, pos := 0, nbits := 0, buf := [],
           stopCause := none, recordValid := false, dropReason := none,
           power0 := 0#16, power1 := 0#16, power2 := 0#16, time := none }

/-- An accepted start with its row (44_decode_session.md R133), which is then in the host's row memory and lent to the
block (70_reset_and_hazards.md R164). -/
def startInvocation (row : Row) (s : State) : State := { startValues s with row := row, hostRow := row }

/-- The host puts another row in its row memory (40_bitview.md R73). No register changes, nor the row an invocation was
run on. The row may be of any length: `MAX_LEN` bounds a row presented by a start or by `DECODE_ROW` only, DESIGN
CHOICE, log entry 11. -/
def alterRow (row : Row) (s : State) : State := { s with hostRow := row }

/-- An accepted entry of the adapter, 44_decode_session.md R135: straight to `VALIDATING` with the host's bytes in
`buf` and `nbits <- 8 * count`; every other register takes its start value (R26, log entry 8). -/
def loadBytes (bytes : List Byte) (count : Nat) (s : State) : State :=
  { startValues s with stage := .validating, buf := Memory.ofBytes bytes, nbits := 8 * count }

/-- The end of a successful search, 41_sync_pattern_searcher.md R88 first arm. -/
def enterDecoding (offset : Nat) (s : State) : State :=
  { s with found := true, syncEnd := offset, pos := offset, nbits := 0, buf := [], stopCause := none,
           stage := .decoding }

/-- The end of a failed search, R88 second arm: `found <- 0` and `raise Drop(NO_SYNC)`. -/
def dropNoSync (s : State) : State := raiseDrop .noSync { s with found := false }

/-- A write of the two search cursors (R78, R79). -/
def setCursors (c : Nat × Nat) (s : State) : State := { s with i := c.1, p := c.2 }

/-- The decoder stops, 42_manchester_line_decoder.md R107: `stop_cause` and the stage, nothing else. -/
def stopDecoding (cause : StopCause) (s : State) : State :=
  { s with stopCause := some cause, stage := .validating }

/-- A valid pair, R97: append the decoded bit, advance `nbits` by 1 and `pos` by 2. -/
def appendBit (d : Bool) (s : State) : State :=
  { s with buf := Memory.setBit s.buf s.nbits d, nbits := s.nbits + 1, pos := s.pos + 2 }

/-- The decoder's registers as a whole decode leaves them, and the stage that follows it (R90, R128). -/
def storeDecode (d : LineDecode) (s : State) : State :=
  { s with pos := d.pos, nbits := d.nbits, buf := d.buf, stopCause := some d.cause, stage := .validating }

/-- The host's input of this step is taken. -/
def popInput (s : State) : State := { s with inputs := s.inputs.tail }

/-- What the host does at this step. -/
def State.nextInput (s : State) : HostInput :=
  match s.inputs with
  | [] => .quiet
  | x :: _ => x

end Machine
end Sys2Proof
end

