-- ==== Sys2Proof/Machine/Operands.lean ====
section
/-! DEFINITION. Every form in which the block reads an operand: one row bit, one pattern bit, one buffer byte, the
whole frame, and a power value assembled from two bytes (20_memory.md R36; 30_encoding.md R55, R58). -/

namespace Sys2Proof

/-- The row bit at address `a` by the formula of 20_memory.md R32. Whether `a` is in range is `Row.bitAt`'s
business. -/
def Row.bit (r : Row) (a : Nat) : Bool := Memory.bit r.mem a

/-- `bit_at(row, index)`, which is `RowRead(index, 1)`: defined for `index < len` only (40_bitview.md R70, R71). -/
def Row.bitAt (r : Row) (a : Nat) : Option Bool := if a < r.len then some (r.bit a) else none

/-- The two rows have the same length and the same bits below it, so they are the same row: what the packed bytes hold
beyond `len` is no part of one (20_memory.md R33). -/
def Row.sameBits (r r' : Row) : Bool :=
  decide (r.len = r'.len) && (List.range r.len).all fun a => r.bit a == r'.bit a

/-- `PatRead(k)`, defined for `k < SYNC_LEN` (20_memory.md R30, R34). -/
def Config.patRead (c : Config) (k : Nat) : Option Bool := if k < c.syncLen then c.syncPattern[k]? else none

namespace Machine

/-- `RowRead(pos, 2)` classified by the pair table (42_manchester_line_decoder.md R95): the pair at `pos` as an
instruction, if both its bits are in range. -/
def fetchPair (s : State) : Option Instr :=
  match s.row.bitAt s.pos, s.row.bitAt (s.pos + 1) with
  | some s1, some s0 => some (decodePair s1 s0)
  | _, _ => none

/-- `F[63:0]`: the eight bytes `buf[0]` to `buf[7]` (30_encoding.md R55). -/
def frameWord (buf : Memory) : BitVec 64 :=
  frameOfBytes (Memory.read buf 0) (Memory.read buf 1) (Memory.read buf 2) (Memory.read buf 3)
    (Memory.read buf 4) (Memory.read buf 5) (Memory.read buf 6) (Memory.read buf 7)

/-- The frame in the buffer as an instruction (R56). -/
def fetchFrame (s : State) : Instr := decodeFrame s.cfg.typeMarker (frameWord s.buf)

/-- The bytes a power frame in hand shows: its slots `a`, `b`, `c` in the low 15 bits of bytes 2 and 3, 4 and 5, 6 and 7
(R55), and the buffer everywhere else. A frame fetched from the buffer shows the buffer. -/
def slotView (a b c : BitVec 15) (buf : Memory) (k : Nat) : Byte :=
  match k with
  | 2 => (Memory.read buf 2 &&& 0x80#8) ||| (a >>> 8).setWidth 8
  | 3 => a.setWidth 8
  | 4 => (Memory.read buf 4 &&& 0x80#8) ||| (b >>> 8).setWidth 8
  | 5 => b.setWidth 8
  | 6 => (Memory.read buf 6 &&& 0x80#8) ||| (c >>> 8).setWidth 8
  | 7 => c.setWidth 8
  | k => Memory.read buf k

/-- 30_encoding.md R58: `zext_16((hi & 0x7F) << 8 | lo)`, the mask a parameter. -/
def powerField (mask hi lo : Byte) : Power := (hi &&& mask).setWidth 16 <<< 8 ||| lo.setWidth 16

/-- Power field `k`, at byte offset `FIELD_BASE + 2k` (43_frame_validator_extractor.md R113); a power register that has
no field keeps its start value 0. -/
def powerOf (c : Config) (byteAt : Nat → Byte) (k : Nat) : Power :=
  if k < c.nFields then powerField c.highMask (byteAt (c.fieldBase + 2 * k)) (byteAt (c.fieldBase + 2 * k + 1))
  else 0#16

end Machine
end Sys2Proof
end

