-- ==== Sys2Proof/Machine/BitView.lean ====
section
/-! DEFINITION. BitView, the row's read port: `BIT_AT` (spec 40_bitview.md R70 to R73). -/

namespace Sys2Proof.Machine

/-- `BIT_AT(row, index)`: the bit comes out of the read port; no register is written (R70, R72). An index at or beyond
`len` is "undefined/fails" and has no value (R71). The row is what the host's row memory holds when the
address comes in (R73), which may be longer than `MAX_LEN`, log entry 11. -/
def execBitAt (index : Nat) (s : State) : StepResult :=
  s.guarded <|
    match s.hostRow.bitAt index with
    | some b => .next (returnAnswer (.bit b) s)
    | none => .fault .rowOutOfRange

end Sys2Proof.Machine
end

