-- ==== Sys2Proof/Machine/Flags.lean ====
section
/-! DEFINITION. Status: the started-byte count, the handshake outputs, the results the registers show as the
document's `Option`s, and the numeric codes. The block has no condition codes (10_state.md R22). -/

namespace Sys2Proof.Machine

/-- 10_state.md R16, 42_manchester_line_decoder.md R99: `ceil(nbits / 8)`. -/
def bytesStarted (nbits : Nat) : Nat := (nbits + 7) / 8

/-- `bytes_started`, "a function of `nbits`, not a separate register" (R16). -/
def State.started (s : State) : Nat := bytesStarted s.nbits

/-- `done`, "1 exactly in `EMIT` and `DROP`" (44_decode_session.md R133). -/
def State.done (s : State) : Bool :=
  match s.stage with
  | .idle => false
  | .seeking => false
  | .decoding => false
  | .validating => false
  | .emit => true
  | .drop => true

/-- The decoder has no room for another bit (R93). `nbits <= CAP*8` always, so this is the spec's `nbits == CAP*8`. -/
def State.atCapacity (s : State) : Bool := decide (s.cfg.cap * 8 ≤ s.nbits)

/-- The row holds no whole pair at `pos` (R94). -/
def State.exhausted (s : State) : Bool := decide (s.row.len ≤ s.pos + 1)

/-- The search result as the document's option (10_state.md R13, D6). -/
def State.searchResult (s : State) : Option Nat := if s.found then some s.syncEnd else none

/-- `match_start = sync_end - SYNC_LEN` (30_encoding.md R66 (c); 41_sync_pattern_searcher.md R87). -/
def State.matchStart (s : State) : Option Nat := s.searchResult.map (· - s.cfg.syncLen)

/-- The record presented to the sink (44_decode_session.md R131, R133): the constant label, the host's `time`, the
three powers; `rc` and `battery` always absent (R132). -/
def State.record (s : State) : Option MeasurementRecord :=
  if s.recordValid then
    s.time.map fun t =>
      { time := t, model := s.cfg.modelLabel, power0 := s.power0, power1 := s.power1, power2 := s.power2,
        rc := none, battery := none }
  else none

/-- 30_encoding.md R64, not architectural. -/
def Stage.code : Stage → Nat
  | .idle => 0
  | .seeking => 1
  | .decoding => 2
  | .validating => 3
  | .emit => 4
  | .drop => 5

/-- 30_encoding.md R64: `NONE = 0`. -/
def stopCauseCode : Option StopCause → Nat
  | none => 0
  | some .cap => 1
  | some .exhausted => 2
  | some .inv => 3

/-- 30_encoding.md R63, 60_exceptions.md R144: `NONE = 0`. -/
def dropReasonCode : Option DropReason → Nat
  | none => 0
  | some .noSync => 1
  | some .truncated => 2
  | some .typeMismatch => 3

end Sys2Proof.Machine
end

