-- ==== Sys2Proof/Machine/LineDecoder.lean ====
section
/-! DEFINITION. The Manchester line decoder (spec 42_manchester_line_decoder.md): the function `decode` of R90, the
instruction `DECODE`, and the meanings of the four symbol pairs (R96, R97). -/

namespace Sys2Proof

/-- The loop of R90 with `room` bits of capacity left, tests in the order of R92: capacity, exhaustion, pair. -/
def decodeLoop (row : Row) : (room pos nbits : Nat) → Memory → Machine.LineDecode
  | 0, pos, nbits, buf => { pos := pos, nbits := nbits, buf := buf, cause := .cap }
  | room + 1, pos, nbits, buf =>
      if row.len ≤ pos + 1 then { pos := pos, nbits := nbits, buf := buf, cause := .exhausted }
      else if row.bit pos = row.bit (pos + 1) then { pos := pos, nbits := nbits, buf := buf, cause := .inv }
      else decodeLoop row room (pos + 2) (nbits + 1) (Memory.setBit buf nbits (row.bit (pos + 1)))

/-- `decode(row, start_offset, capacity)`, R90: from `start` with no bits decoded and the buffer cleared (R91). -/
def decodeLine (row : Row) (start capacity : Nat) : Machine.LineDecode := decodeLoop row (capacity * 8) start 0 []

namespace Machine

/-- The stage `DECODING` run whole from `sync_end` (R90, R107). -/
def runDecode (s : State) : State := storeDecode (decodeLine s.row s.syncEnd s.cfg.cap) s

/-- `DECODE`: runs its stage in its stage. While no invocation runs it is available as a function (60_exceptions.md
R151): it gives back, for the row in the host's memory, the buffer and the started count, which is all R99 returns, and writes no register, so nothing is
re-decoded (R147, R156). In another running stage it is not accepted and changes nothing. `sync_end` "must not be read"
while `found = 0` (10_state.md R13). Log entries 6, 22; the row in the host's memory may be longer than `MAX_LEN`, log
entry 11. -/
def execDecode (s : State) : StepResult :=
  s.guarded <|
    if s.stage = .decoding then
      if s.found then .next (runDecode s) else .fault .syncEndUnreadable
    else if s.busy then .next s
    else if s.found then
      let d := decodeLine s.hostRow s.syncEnd s.cfg.cap
      .next (returnAnswer (.buffer d.buf (bytesStarted d.nbits)) s)
    else .fault .syncEndUnreadable

/-- One iteration of R107 with its pair in hand: at capacity the pair is not read (R93), otherwise `k` says what the
pair does. -/
def withRoom (s : State) (k : State → State) : StepResult :=
  s.guarded <| .next (if s.atCapacity then stopDecoding .cap s else k s)

/-- `PAIR_FALL`, a valid pair with decoded bit 0 (R97). -/
def execPairFall (s : State) : StepResult := withRoom s (appendBit false)

/-- `PAIR_RISE`, a valid pair with decoded bit 1 (R97). -/
def execPairRise (s : State) : StepResult := withRoom s (appendBit true)

/-- `PAIR_INV00`: decoding stops, "nothing is written, `nbits` and `pos` keep their values" (R96). -/
def execPairInv00 (s : State) : StepResult := withRoom s (stopDecoding .inv)

/-- `PAIR_INV11`: as `PAIR_INV00` (R96). -/
def execPairInv11 (s : State) : StepResult := withRoom s (stopDecoding .inv)

end Machine
end Sys2Proof
end

