-- ==== Sys2Proof/Machine/Searcher.lean ====
section
/-! DEFINITION. The sync pattern searcher (spec 41_sync_pattern_searcher.md): the function `seek` of R75, the
instruction `SEEK`, and the `SEEKING` step of R88. -/

namespace Sys2Proof

/-- Pattern bit `k` of a pattern given as a list; only asked for below the declared length. -/
def patternBit (pat : List Bool) (k : Nat) : Bool := pat.getD k false

/-- One comparison: both cursors advance on a match (R78), `i <- i - p + 1; p <- 0` on a mismatch (R79). -/
def seekAdvance (isMatch : Bool) (i p : Nat) : Nat × Nat := if isMatch then (i + 1, p + 1) else (i - p + 1, 0)

/-- The loop of R75 over the two cursors, at most `fuel` comparisons. -/
def seekLoop (row : Row) (pat : List Bool) (patLen : Nat) : Nat → Nat → Nat → Nat × Nat
  | 0, i, p => (i, p)
  | fuel + 1, i, p =>
      if i < row.len ∧ p < patLen then
        let c := seekAdvance (row.bit i == patternBit pat p) i p
        seekLoop row pat patLen fuel c.1 c.2
      else (i, p)

/-- The cursors when the loop has ended, from `i = p = 0` (R76); `len * L` comparisons always suffice (R86). -/
def seekCursors (row : Row) (pat : List Bool) (patLen : Nat) : Nat × Nat :=
  seekLoop row pat patLen (row.len * patLen) 0 0

/-- `seek(row, pattern, pattern_len)`, R75: `Some` of the input cursor when `p == L` (R80), else `None` (R81). -/
def seek (row : Row) (pat : List Bool) (patLen : Nat) : Option Nat :=
  let c := seekCursors row pat patLen
  if c.2 = patLen then some c.1 else none

namespace Machine

/-- The stage `SEEKING` run whole from `i = p = 0`: the cursors as the loop leaves them, then the sequencer's way on
(R75, R88; 44_decode_session.md R128). -/
def runSeek (s : State) : State :=
  let c := seekCursors s.row s.cfg.syncPattern s.cfg.syncLen
  if c.2 = s.cfg.syncLen then enterDecoding c.1 (setCursors c s) else dropNoSync (setCursors c s)

/-- `SEEK`: runs its stage in its stage. While no invocation runs it is available as a function (60_exceptions.md R151):
it gives back the option for the row in the host's memory and writes no register, since only a start does (R147, R156). In another running stage it is
not accepted and changes nothing (44_decode_session.md R126). Log entries 6, 22; the row in the host's memory may be
longer than `MAX_LEN`, log entry 11. -/
def execSeek (s : State) : StepResult :=
  s.guarded <|
    if s.stage = .seeking then .next (runSeek s)
    else if s.busy then .next s
    else .next (returnAnswer (.offset (seek s.hostRow s.cfg.syncPattern s.cfg.syncLen)) s)

/-- One step in stage `SEEKING`, the four arms of R88 in their order. -/
def seekingStep (s : State) : StepResult :=
  if s.p = s.cfg.syncLen then .next (enterDecoding s.i s)
  else if s.row.len ≤ s.i then .next (dropNoSync s)
  else
    match s.row.bitAt s.i, s.cfg.patRead s.p with
    | some b, some q => .next (setCursors (seekAdvance (b == q) s.i s.p) s)
    | none, _ => .fault .rowOutOfRange
    | some _, none => .fault .patOutOfRange

end Machine
end Sys2Proof
end

