-- ==== Sys2Proof/Machine/Validator.lean ====
section
/-! DEFINITION. The frame validator and extractor (spec 43_frame_validator_extractor.md): the function
`validate_extract` of R110, the instruction `VALIDATE_EXTRACT`, and the meanings of the two frame types. -/

namespace Sys2Proof.Machine

/-- `validate_extract(buf, started)`, R110; length, then type, then extraction (R115). Byte 1 and the top bit of each
high byte have no effect (R114, R116). -/
def validateFrame (c : Config) (buf : Memory) (started : Nat) : Verdict :=
  if started < c.minBytes then .reject .truncated
  else if Memory.read buf 0 ≠ c.typeMarker then .reject .typeMismatch
  else .frame (powerOf c (Memory.read buf) 0) (powerOf c (Memory.read buf) 1) (powerOf c (Memory.read buf) 2)

/-- The sequencer on the validator's answer: a rejection is a drop, a frame is emitted (44_decode_session.md R128). -/
def applyVerdict (v : Verdict) (s : State) : State :=
  match v with
  | .reject reason => raiseDrop reason s
  | .frame p0 p1 p2 => emitRecord p0 p1 p2 s

/-- The stage `VALIDATING` run whole (R119). -/
def runValidate (s : State) : State := applyVerdict (validateFrame s.cfg s.buf s.started) s

/-- `VALIDATE_EXTRACT`: runs its stage in its stage. While no invocation runs it is available as a function
(60_exceptions.md R151): it gives back its verdict on the buffer as it stands and writes no register, so no drop occurs
in `DROP` (R147, R156). In another running stage it is not accepted and changes nothing. Log entry 6. -/
def execValidateExtract (s : State) : StepResult :=
  s.guarded <|
    if s.stage = .validating then .next (runValidate s)
    else if s.busy then .next s
    else .next (returnAnswer (.verdict (validateFrame s.cfg s.buf s.started)) s)

/-- The length check both frame types stand behind (R111, R115): "rejected before any byte is looked at". -/
def withLength (s : State) (k : State → State) : StepResult :=
  s.guarded <| .next (if s.started < s.cfg.minBytes then raiseDrop .truncated s else k s)

/-- The powers taken from these bytes, and the record emitted (R113). -/
def emitPowers (byteAt : Nat → Byte) (s : State) : State :=
  emitRecord (powerOf s.cfg byteAt 0) (powerOf s.cfg byteAt 1) (powerOf s.cfg byteAt 2) s

/-- `FRAME_POWER`: the power fields of the frame become the powers and the record is emitted (R113). In the printed
layout the fields are `a`, `b` and `c`, and `r` and the `x` bits are ignored (30_encoding.md R57, R59); under another
`FIELD_BASE`, `N_FIELDS` or mask (00_scope.md R9) they lie where R113's formula puts them, and the bits it wants beside
the three slots are the buffer's, which the opcode table's row reads. Log entry 12. -/
def execFramePower (a b c : BitVec 15) (s : State) : StepResult :=
  withLength s (emitPowers (slotView a b c s.buf))

/-- `FRAME_OTHER`: drop `TYPE_MISMATCH` after the length check (R112). -/
def execFrameOther (s : State) : StepResult := withLength s (raiseDrop .typeMismatch)

end Sys2Proof.Machine
end

