-- ==== Sys2Proof/Machine/Session.lean ====
section
/-! DEFINITION. The decode session (spec 44_decode_session.md): `DECODE_ROW` and `VALIDATE_BYTES` as whole
transactions, and the acceptance of a start or of the adapter's entry. -/

namespace Sys2Proof.Machine

/-- The three stages in their order; a stage runs only if the one before it did not end the invocation
(R125, R126). -/
def runStages (s : State) : State :=
  let t := runSeek s
  if t.stage = .decoding then runValidate (runDecode t) else t

/-- A start request (R133): accepted when the block is not busy; "not accepted and changes nothing" otherwise. -/
def acceptStart (row : Row) (s : State) : StepResult :=
  if s.busy then .next s
  else if s.cfg.admitsLen row.len then .next (startInvocation row s)
  else .refused .rowTooLong

/-- The adapter's entry (R135): `CAP` bytes and a count of at most `CAP`. -/
def acceptBytes (bytes : List Byte) (count : Nat) (s : State) : StepResult :=
  if s.busy then .next s
  else if bytes.length = s.cfg.cap ∧ count ≤ s.cfg.cap then .next (loadBytes bytes count s)
  else .refused .adapterInput

/-- `DECODE_ROW(row)`: the whole invocation (R125). -/
def execDecodeRow (row : Row) (s : State) : StepResult :=
  s.guarded <|
    if s.busy then .next s
    else if s.cfg.admitsLen row.len then .next (runStages (startInvocation row s))
    else .refused .rowTooLong

/-- `VALIDATE_BYTES(bytes, count)`: `validate_extract(bytes, count)` with the search and the decode skipped (R135;
30_encoding.md R66 (b)). -/
def execValidateBytes (bytes : List Byte) (count : Nat) (s : State) : StepResult :=
  s.guarded <|
    if s.busy then .next s
    else if bytes.length = s.cfg.cap ∧ count ≤ s.cfg.cap then .next (runValidate (loadBytes bytes count s))
    else .refused .adapterInput

end Sys2Proof.Machine
end

