-- ==== Sys2Proof/Machine/Dispatch.lean ====
section
/-! DEFINITION. One arm per row of the opcode table: the meaning of each. -/

namespace Sys2Proof.Machine

def exec (i : Instr) (s : State) : Host.Outcome State Fault Refusal :=
  match i with
  | .pairFall => Sys2Proof.Machine.execPairFall s
  | .pairRise => Sys2Proof.Machine.execPairRise s
  | .pairInv00 => Sys2Proof.Machine.execPairInv00 s
  | .pairInv11 => Sys2Proof.Machine.execPairInv11 s
  | .framePower _ _ a _ b _ c => Sys2Proof.Machine.execFramePower a b c s
  | .frameOther _ _ => Sys2Proof.Machine.execFrameOther s
  | .bitAt index => Sys2Proof.Machine.execBitAt index s
  | .seek => Sys2Proof.Machine.execSeek s
  | .decode => Sys2Proof.Machine.execDecode s
  | .validateExtract => Sys2Proof.Machine.execValidateExtract s
  | .decodeRow row => Sys2Proof.Machine.execDecodeRow row s
  | .validateBytes bytes count => Sys2Proof.Machine.execValidateBytes bytes count s

end Sys2Proof.Machine
end

