-- ==== Sys2Proof/Machine/Sequencer.lean ====
section
/-! DEFINITION. The sequencer (spec 44_decode_session.md R128): what one step does in each stage, and what the host
can do at a step. A `DECODING` step fetches the pair at `pos` and runs it; a `VALIDATING` step fetches the frame in
the buffer and runs it. -/

namespace Sys2Proof.Machine

/-- One step in stage `DECODING`, 42_manchester_line_decoder.md R107: capacity, exhaustion, then the pair. -/
def decodingStep (s : State) : StepResult :=
  if s.atCapacity then .next (stopDecoding .cap s)
  else if s.exhausted then .next (stopDecoding .exhausted s)
  else
    match fetchPair s with
    | some i => exec i s
    | none => .fault .rowOutOfRange

/-- One step in stage `VALIDATING`: the length is checked before any byte is looked at
(43_frame_validator_extractor.md R111, R115), then the frame is run. -/
def validatingStep (s : State) : StepResult :=
  if s.started < s.cfg.minBytes then .next (raiseDrop .truncated s)
  else exec (fetchFrame s) s

/-- The rows of the opcode table that are operations; pairs and frames are data and are never called (30_encoding.md
R65, R67). -/
def isOperation : Instr → Bool
  | .pairFall => false
  | .pairRise => false
  | .pairInv00 => false
  | .pairInv11 => false
  | .framePower _ _ _ _ _ _ _ => false
  | .frameOther _ _ => false
  | .bitAt _ => true
  | .seek => true
  | .decode => true
  | .validateExtract => true
  | .decodeRow _ => true
  | .validateBytes _ _ => true

/-- One step in `IDLE`, `EMIT` or `DROP`: no register changes until a start, by the start request, by `DECODE_ROW`, or by
the adapter's entry (R128, R133, R135; 60_exceptions.md R147, R156); another operation called only gives its value back
(log entry 6). The host may alter its row memory, since no row is lent; `BIT_AT` and the other lone operations see it
(40_bitview.md R73, log entry 22), and an invocation gets its row with its start. -/
def waitingStep (x : HostInput) (s : State) : StepResult :=
  match x with
  | .quiet => .next s
  | .start row => acceptStart row s
  | .bypass bytes count => acceptBytes bytes count s
  | .call op => if isOperation op then exec op s else .next s
  | .changeRow row => .next (alterRow row s)
  | .reset => .next (resetRegisters s)

/-- One step of a running invocation or of a run the adapter began; a start or a call is ignored (R133), reset abandons
the invocation (70_reset_and_hazards.md R160). A change of the lent row has no meaning (20_memory.md R49,
93_implementation_defined.md U3); a host write that leaves its length and bits as they were is none, and in a run of the
adapter no row is lent or read (43_frame_validator_extractor.md R119), so there the step goes on. Log entry 22. -/
def runningStep (x : HostInput) (s : State) (k : State → StepResult) : StepResult :=
  match x with
  | .quiet => k s
  | .start _ => k s
  | .bypass _ _ => k s
  | .call _ => k s
  | .changeRow row =>
      if s.rowLent && !row.sameBits s.row then .refused .rowChangedDuringInvocation else k (alterRow row s)
  | .reset => .next (resetRegisters s)

/-- One step of the block with the host's input `x` taken. -/
def sequencerStep (x : HostInput) (s : State) : StepResult :=
  match s.stage with
  | .idle => waitingStep x s
  | .seeking => runningStep x s seekingStep
  | .decoding => runningStep x s decodingStep
  | .validating => runningStep x s validatingStep
  | .emit => waitingStep x s
  | .drop => waitingStep x s

/-- A pair put where the next step fetches it: stage `DECODING` with room for a bit, the two bits at `pos` of a row
that holds them, no host input in the way. -/
def placePair (s1 s0 : Bool) (s : State) : State :=
  let row := (s.row.putBit s.pos s1).putBit (s.pos + 1) s0
  { s with stage := .decoding, inputs := [], nbits := if s.atCapacity then 0 else s.nbits, row := row, hostRow := row }

/-- A frame put where the next step fetches it: stage `VALIDATING` with enough started bytes, the frame in the first
eight bytes of the buffer, no host input in the way. -/
def placeFrame (f : BitVec 64) (s : State) : State :=
  { s with stage := .validating, inputs := [],
           nbits := if s.started < s.cfg.minBytes then 8 * s.cfg.minBytes else s.nbits,
           buf := (List.range 8).foldl (fun m k => Memory.write m k (frameByte f k)) s.buf }

/-- An opcode-table word put where the next step fetches it; a width no format has leaves the state alone. -/
def placeWord (nbits w : Nat) (s : State) : State :=
  if nbits = 64 then placeFrame (BitVec.ofNat 64 w) s
  else if 2 ≤ nbits ∧ nbits ≤ 8 then placePair (w.testBit 1) (w.testBit 0) s
  else s

end Sys2Proof.Machine
end

