-- ==== Sys2Proof/Machine/Step.lean ====
section
/-! DEFINITION. One step of the machine, and the placing of a word for the host's questions. -/

namespace Sys2Proof.Machine

/-- One step: the configuration is refused if it breaks 00_scope.md R6; else the host's input is taken and the
sequencer steps. -/
def step (s : State) : Host.Outcome State Fault Refusal :=
  s.guarded (sequencerStep s.nextInput (popInput s))

/-- `s` with the table word `w` where the next step fetches its pair or its frame. -/
def State.withFetchWord (s : State) (nbits w : Nat) : State := placeWord nbits w s

end Sys2Proof.Machine
end

