-- ==== Sys2Proof/Safety.lean ====
section
/-! DEFINITION. What the claims are stated in: occurrences of the pattern, the invariant of 10_state.md R24 with the
output rule of 44_decode_session.md R134, quiet runs, and what it is for two rows to hold the same bits. -/

namespace Sys2Proof

/-- The pattern occurs in the row at offset `s` (41_sync_pattern_searcher.md R82). -/
def OccursAt (row : Row) (pat : List Bool) (patLen s : Nat) : Prop :=
  s + patLen ≤ row.len ∧ ∀ k, k < patLen → row.bit (s + k) = patternBit pat k

/-- `s` is the least offset at which the pattern occurs (R82). -/
def FirstOccurrence (row : Row) (pat : List Bool) (patLen s : Nat) : Prop :=
  OccursAt row pat patLen s ∧ ∀ t, t < s → ¬ OccursAt row pat patLen t

/-- Two rows hold the same bits below the same length; what lies in the packed bytes beyond `len` may differ
(20_memory.md R33). -/
def SameBits (r r' : Row) : Prop := r.len = r'.len ∧ ∀ a, a < r.len → r.bit a = r'.bit a

/-- Pair number `n` after `start` lies in the row and is valid (42_manchester_line_decoder.md R105). -/
def ValidPairAt (row : Row) (start n : Nat) : Prop :=
  start + 2 * n + 1 < row.len ∧ row.bit (start + 2 * n) ≠ row.bit (start + 2 * n + 1)

/-- The layout the document prints: three power fields from byte 2 on, the mask 0x7F (30_encoding.md R55, R58). -/
def Config.printedLayout (c : Config) : Prop := c.fieldBase = 2 ∧ c.nFields = 3 ∧ c.highMask = 0x7F#8

namespace Machine

/-- A host input carries canonical rows only. -/
def HostInput.wf : HostInput → Bool
  | .quiet => true
  | .start row => row.wf
  | .bypass _ _ => true
  | .call (.decodeRow row) => row.wf
  | .call .pairFall => true
  | .call .pairRise => true
  | .call .pairInv00 => true
  | .call .pairInv11 => true
  | .call (.framePower _ _ _ _ _ _ _) => true
  | .call (.frameOther _ _) => true
  | .call (.bitAt _) => true
  | .call .seek => true
  | .call .decode => true
  | .call .validateExtract => true
  | .call (.validateBytes _ _) => true
  | .changeRow row => row.wf
  | .reset => true

/-- Memory is canonical and in its address space (20_memory.md R30): the borrowed row, the host's row memory, the rows
still to come, and the buffer, whose bytes lie below `CAP`. -/
structure MemoryInv (s : State) : Prop where
  rowWf : s.row.wf = true
  hostRowWf : s.hostRow.wf = true
  /-- while an invocation runs, the host's memory holds the lent row (20_memory.md R44) -/
  lent : s.rowLent = true → SameBits s.hostRow s.row
  inputsWf : ∀ x ∈ s.inputs, HostInput.wf x = true
  bufWf : Memory.wf s.buf = true
  bufInCapacity : Memory.below s.buf s.cfg.cap = true

/-- The registers, 10_state.md R24 (a) to (h), and the range of the presented length (00_scope.md R5). -/
structure RegisterInv (s : State) : Prop where
  legal : s.cfg.legal = true
  rowFits : s.cfg.admitsLen s.row.len = true
  /-- (a) -/
  cursors : s.p ≤ s.i ∧ s.i ≤ s.row.len ∧ s.p ≤ s.cfg.syncLen
  /-- (b) -/
  matched : s.stage = .seeking → ∀ k, k < s.p → s.row.bit (s.i - s.p + k) = patternBit s.cfg.syncPattern k
  /-- (c) -/
  syncEndRange : s.found = true → s.cfg.syncLen ≤ s.syncEnd ∧ s.syncEnd ≤ s.row.len
  /-- `sync_end` keeps its start value 0 while `found = 0` (R13) -/
  syncEndUnset : s.found = false → s.syncEnd = 0
  /-- (d) -/
  nbitsBound : s.nbits ≤ s.cfg.cap * 8
  /-- (e), for invocations that searched; the adapter sets `nbits` without `pos` (44_decode_session.md R135) -/
  posRule : s.found = true → s.pos = s.syncEnd + 2 * s.nbits
  /-- (f), and "`pos <= max(len, sync_end)` always" of R21 -/
  posRange : s.pos ≤ s.row.len
  /-- (g), for invocations that searched; the adapter's bytes are the host's -/
  unwrittenZero : s.found = true → ∀ n, s.nbits ≤ n → Memory.bit s.buf n = false
  /-- (h) -/
  powersBelow : s.power0.toNat ≤ s.cfg.powerMax ∧ s.power1.toNat ≤ s.cfg.powerMax ∧ s.power2.toNat ≤ s.cfg.powerMax

/-- Which stage goes with which status (10_state.md R13, R17, R25; 44_decode_session.md R128, R134). -/
structure StageInv (s : State) : Prop where
  seekingStart : s.stage = .seeking → s.found = false ∧ s.pos = 0 ∧ s.nbits = 0 ∧ s.buf = []
  decodingFound : s.stage = .decoding → s.found = true
  notStopped : s.stage = .seeking ∨ s.stage = .decoding → s.stopCause = none
  emitOutputs : s.stage = .emit → s.recordValid = true ∧ s.dropReason = none ∧ s.time.isSome = true
  dropOutputs : s.stage = .drop → s.dropReason.isSome = true
  dropOnly : s.stage ≠ .drop → s.dropReason = none
  emitOnly : s.stage ≠ .emit →
    s.recordValid = false ∧ s.time = none ∧ s.power0 = 0#16 ∧ s.power1 = 0#16 ∧ s.power2 = 0#16

/-- The invariant of the block. -/
structure BlockInv (s : State) : Prop where
  memory : MemoryInv s
  registers : RegisterInv s
  stages : StageInv s

/-- The search is sound: while seeking no occurrence starts before the candidate `i - p`, and once found `sync_end`
is the end of the first occurrence (41_sync_pattern_searcher.md R82). -/
structure SearchInv (s : State) : Prop where
  noneBefore : s.stage = .seeking →
    ∀ t, t < s.i - s.p → ¬ OccursAt s.row s.cfg.syncPattern s.cfg.syncLen t
  firstFound : s.found = true →
    FirstOccurrence s.row s.cfg.syncPattern s.cfg.syncLen (s.syncEnd - s.cfg.syncLen)

/-- The next step takes no reset and no write of the host to its row memory, so a running invocation goes on. -/
def State.undisturbed (s : State) : Prop :=
  s.nextInput ≠ .reset ∧ ∀ row, s.nextInput ≠ .changeRow row

end Machine
end Sys2Proof
end

