-- ==== Sys2Proof/Certificates/Slice0/Obligations.lean ====
section
/-! DEFINITION. The statements about the block. Each docstring names the rules it formalises, or says what it rests
on. A statement about a whole next state is its own frame: what `{ s with … }` does not name is unchanged. The fields
`inputs`, `time`, `clockReads` and `answer` are the model's own (log entries 3, 4, 6, 7), and so is what a statement says
of them. -/

open Sys2Proof Sys2Proof.Machine

/-! The encodings. -/

/-- 30_encoding.md R52: `10` is a falling pair, `01` a rising pair, `00` and `11` are invalid. That a pair is valid exactly
when its bits differ and then decodes to its second bit is R52's own inference from its table; that running it with
room in the buffer appends that bit is 42_manchester_line_decoder.md R97. -/
def Obligations.PairTableMatchesTheLineCode : Prop :=
  decodePair true false = .pairFall ∧ decodePair false true = .pairRise ∧
  decodePair false false = .pairInv00 ∧ decodePair true true = .pairInv11 ∧
  (∀ s1 s0, (decodePair s1 s0 = .pairFall ∨ decodePair s1 s0 = .pairRise) ↔ s1 ≠ s0) ∧
  ∀ (s : State) (s1 s0 : Bool), s.cfg.legal = true → s.nbits < s.cfg.cap * 8 → s1 ≠ s0 →
    exec (decodePair s1 s0) s = .next { s with
      buf := Memory.setBit s.buf s.nbits s0, nbits := s.nbits + 1, pos := s.pos + 2 }

/-- Words written out from the spec's encodings: the four pairs (R52), and the document's frame
`0D A5 01 2C 00 64 00 FA` and the same with byte 0 = `8D` (R55, 95_test_vectors.md V-F1, V-F7). R52 gives a pair two
bits; that it is handed over as one byte with its other bits 0 is the model's choice (log entry 20). -/
def Obligations.WrittenOutWordsDecode : Prop :=
  decodeBytes 0x0D#8 [0b10#8] = .instr .pairFall ∧ decodeBytes 0x0D#8 [0b01#8] = .instr .pairRise ∧
  decodeBytes 0x0D#8 [0b00#8] = .instr .pairInv00 ∧ decodeBytes 0x0D#8 [0b11#8] = .instr .pairInv11 ∧
  decodeBytes 0x0D#8 [0x0D#8, 0xA5#8, 0x01#8, 0x2C#8, 0x00#8, 0x64#8, 0x00#8, 0xFA#8] =
    .instr (.framePower 0xA5#8 0#1 300#15 0#1 100#15 0#1 250#15) ∧
  decodeBytes 0x0D#8 [0x8D#8, 0xA5#8, 0x01#8, 0x2C#8, 0x00#8, 0x64#8, 0x00#8, 0xFA#8] =
    .instr (.frameOther 0x8D#8 0xA5012C006400FA#56)

/-- Decode and encode agree: every well-formed pair and frame has an encoding, under every configuration's marker,
and decoding it gives the instruction back with every operand at every value. A pair's byte is the model's choice (log
entry 20). -/
def Obligations.DecodeOfEncodeIsTheInstruction : Prop :=
  ∀ (c : Config) (i : Instr), wellFormed c i = true → isOperation i = false →
    ∃ bytes, encode c.typeMarker i = some bytes ∧ decodeBytes c.typeMarker bytes = .instr i

/-- The other direction: bytes that decode to an instruction are its encoding, and the instruction is well formed, so
no two byte strings mean the same and no decoded instruction breaks a check. For a pair this rests on bits 7 to 2 of its
byte having to be 0, which is the model's choice (log entry 20). -/
def Obligations.EncodeOfDecodeIsTheBytes : Prop :=
  ∀ (c : Config) (bytes : List Byte) (i : Instr), decodeBytes c.typeMarker bytes = .instr i →
    encode c.typeMarker i = some bytes ∧ wellFormed c i = true

/-- 30_encoding.md R55: the frame laid over eight bytes, each power's high part being the low 7 bits of the byte at
the lower index and its low part the byte after it, the top bit apart, byte 1 the `rc`. -/
def Obligations.FrameLayoutOverTheBytes : Prop :=
  ∀ (marker b1 b2 b3 b4 b5 b6 b7 : Byte),
    decodeFrame marker (frameOfBytes marker b1 b2 b3 b4 b5 b6 b7) =
      .framePower b1 (b2.extractLsb' 7 1) (b2.extractLsb' 0 7 ++ b3)
        (b4.extractLsb' 7 1) (b4.extractLsb' 0 7 ++ b5) (b6.extractLsb' 7 1) (b6.extractLsb' 0 7 ++ b7)

/-- 30_encoding.md R56: byte 0 alone selects the power frame, and every other value of it is "not this frame". -/
def Obligations.TypeByteAloneSelectsTheFrame : Prop :=
  ∀ (marker b0 b1 b2 b3 b4 b5 b6 b7 : Byte),
    (b0 = marker → ∃ r x0 a x1 b x2 c, decodeFrame marker (frameOfBytes b0 b1 b2 b3 b4 b5 b6 b7) =
      .framePower r x0 a x1 b x2 c) ∧
    (b0 ≠ marker → ∃ rest, decodeFrame marker (frameOfBytes b0 b1 b2 b3 b4 b5 b6 b7) = .frameOther b0 rest)

/-! BitView. -/

/-- 40_bitview.md R70, R72: an in-range `bit_at` is `(row_byte[index >> 3] >> (7 - (index & 7))) & 1` and writes no
register, flag or memory. That the row is what the host's row memory holds (log entry 22), and that the bit comes out in
the field `answer` (log entry 4), is the model's choice. -/
def Obligations.BitAtReturnsTheAddressedBit : Prop :=
  ∀ (s : State) (index : Nat), s.cfg.legal = true → index < s.hostRow.len →
    exec (.bitAt index) s = .next { s with
      answer := some (.bit (decide
        ((Memory.read s.hostRow.mem (index >>> 3) >>> (7 - (index &&& 7))) &&& 1#8 = 1#8))) }

/-- 40_bitview.md section `bit_at` (R71, first clause): out of range there is no value; the model faults. -/
def Obligations.BitAtOutOfRangeHasNoValue : Prop :=
  ∀ (s : State) (index : Nat), s.cfg.legal = true → s.hostRow.len ≤ index →
    exec (.bitAt index) s = .fault .rowOutOfRange

/-! The sync pattern searcher. -/

/-- 41_sync_pattern_searcher.md R88: the four arms of a `SEEKING` step, in their order, with everything each writes (R78 to
R81). That one loop iteration is one step is the spec's own choice D4 (log entry 15).
`p <= SYNC_LEN` is the invariant of 10_state.md R24 (a). -/
def Obligations.SeekingStepFollowsTheFourArms : Prop :=
  ∀ s : State, s.cfg.legal = true → s.stage = .seeking → s.p ≤ s.cfg.syncLen → s.undisturbed →
    let u : State := { s with inputs := s.inputs.tail }
    step s = .next (
      if s.p = s.cfg.syncLen then
        { u with found := true, syncEnd := s.i, pos := s.i, nbits := 0, buf := [], stopCause := none,
                 stage := .decoding }
      else if s.row.len ≤ s.i then
        { u with found := false, stage := .drop, dropReason := some .noSync }
      else if s.row.bit s.i = patternBit s.cfg.syncPattern s.p then
        { u with i := s.i + 1, p := s.p + 1 }
      else
        { u with i := s.i - s.p + 1, p := 0 })

/-- 41_sync_pattern_searcher.md section 2 (R82, an inference of the spec): `seek` answers the end of the leftmost
occurrence, and "not found" exactly when there is none, for every row and every pattern. -/
def Obligations.SeekFindsTheFirstOccurrence : Prop :=
  ∀ (row : Row) (pat : List Bool) (patLen : Nat),
    (∀ o, seek row pat patLen = some o ↔ ∃ s, o = s + patLen ∧ FirstOccurrence row pat patLen s) ∧
    (seek row pat patLen = none ↔ ∀ s, ¬ OccursAt row pat patLen s)

/-- 41_sync_pattern_searcher.md R84: a row shorter than the pattern gives not-found, and the empty row without a
single comparison. -/
def Obligations.ShortRowsHaveNoSync : Prop :=
  ∀ (row : Row) (pat : List Bool) (patLen : Nat), row.len < patLen →
    seek row pat patLen = none ∧ (row.len = 0 → seekCursors row pat patLen = (0, 0))

/-- 41_sync_pattern_searcher.md R80: success when `p == pattern_len`, tested first, so a pattern that ends at the
last row bit is found; a row equal to the pattern gives `pattern_len`. -/
def Obligations.ExactPatternIsFoundAtItsEnd : Prop :=
  (∀ pat : List Bool, seek (Row.ofBits pat) pat pat.length = some pat.length) ∧
  ∀ s : State, s.cfg.legal = true → s.stage = .seeking → s.p = s.cfg.syncLen → s.undisturbed →
    ∃ t, step s = .next t ∧ t.found = true ∧ t.syncEnd = s.i ∧ t.stage = .decoding

/-- 41_sync_pattern_searcher.md R75, with 44_decode_session.md R128's way on: `SEEK` in its stage answers a next
state that holds the function's result. The registers not named keep their values. -/
def Obligations.SeekInstructionStoresItsResult : Prop :=
  ∀ s : State, s.cfg.legal = true → s.stage = .seeking →
    match seek s.row s.cfg.syncPattern s.cfg.syncLen with
    | some o => exec .seek s = .next { s with
        i := o, p := s.cfg.syncLen, found := true, syncEnd := o, pos := o, nbits := 0, buf := [],
        stopCause := none, stage := .decoding }
    | none => ∃ p, p < s.cfg.syncLen ∧ exec .seek s = .next { s with
        i := s.row.len, p := p, found := false, stage := .drop, dropReason := some .noSync }

/-- Called while the block is not busy (60_exceptions.md R151), the three stage operations give back the values of their
functions (30_encoding.md R65) on the operands in place and write no register, since only a start does (R147, R156).
That the value is shown in the field `answer`, and that the row is the one in the host's memory, is the model's choice
(log entries 6, 22). -/
def Obligations.StageOperationsAnswerWhenNotBusy : Prop :=
  ∀ s : State, s.cfg.legal = true → s.busy = false →
    exec .seek s = .next { s with answer := some (.offset (seek s.hostRow s.cfg.syncPattern s.cfg.syncLen)) } ∧
    (s.found = true →
      let d := decodeLine s.hostRow s.syncEnd s.cfg.cap
      exec .decode s = .next { s with answer := some (.buffer d.buf (bytesStarted d.nbits)) }) ∧
    exec .validateExtract s = .next { s with answer := some (.verdict (validateFrame s.cfg s.buf s.started)) }

/-- 41_sync_pattern_searcher.md section 3 and R86's bound (inferences of the spec): from `i = p = 0`, at most
`len * SYNC_LEN + 1` quiet `SEEKING` steps end exactly in the state `SEEK` answers. -/
def Obligations.SearchStepsRunSeek : Prop :=
  ∀ s : State, s.cfg.legal = true → s.stage = .seeking → s.i = 0 → s.p = 0 → s.inputs = [] →
    ∃ n, n ≤ s.row.len * s.cfg.syncLen + 1 ∧ Host.Core.run Sys2Proof.core n s = exec .seek s

/-! The Manchester line decoder. -/

/-- 42_manchester_line_decoder.md R107: the four arms of a `DECODING` step, in their order, with everything each
writes. `nbits <= CAP*8` is the invariant of 10_state.md R24 (d). -/
def Obligations.DecodingStepFollowsTheFourArms : Prop :=
  ∀ s : State, s.cfg.legal = true → s.stage = .decoding → s.nbits ≤ s.cfg.cap * 8 → s.undisturbed →
    let u : State := { s with inputs := s.inputs.tail }
    step s = .next (
      if s.nbits = s.cfg.cap * 8 then { u with stopCause := some .cap, stage := .validating }
      else if s.row.len ≤ s.pos + 1 then { u with stopCause := some .exhausted, stage := .validating }
      else if s.row.bit s.pos = s.row.bit (s.pos + 1) then { u with stopCause := some .inv, stage := .validating }
      else { u with buf := Memory.setBit s.buf s.nbits (s.row.bit (s.pos + 1)),
                    nbits := s.nbits + 1, pos := s.pos + 2 })

/-- 42_manchester_line_decoder.md R97 with 20_memory.md R35: with room left, a falling pair appends 0 and a rising
pair appends 1. The buffer byte `nbits >> 3` takes the bit at `7 - (nbits & 7)`, every other byte reads as before,
`nbits` rises by 1, `pos` by 2, nothing else changes. -/
def Obligations.ValidPairsAppendTheirBit : Prop :=
  ∀ (s : State) (i : Instr) (d : BitVec 8),
    (i = .pairFall ∧ d = 0#8) ∨ (i = .pairRise ∧ d = 1#8) →
    s.cfg.legal = true → s.nbits < s.cfg.cap * 8 → Memory.wf s.buf = true →
    ∃ buf', exec i s = .next { s with buf := buf', nbits := s.nbits + 1, pos := s.pos + 2 } ∧
      Memory.read buf' (s.nbits >>> 3) =
        Memory.read s.buf (s.nbits >>> 3) ||| (d <<< (7 - (s.nbits &&& 7))) ∧
      ∀ a, a ≠ s.nbits >>> 3 → Memory.read buf' a = Memory.read s.buf a

/-- 42_manchester_line_decoder.md R96: with room left, an invalid pair stops decoding; `buf`, `nbits` and `pos` keep
their values. -/
def Obligations.InvalidPairsStopTheDecoder : Prop :=
  ∀ (s : State) (i : Instr), i = .pairInv00 ∨ i = .pairInv11 →
    s.cfg.legal = true → s.nbits < s.cfg.cap * 8 →
    exec i s = .next { s with stopCause := some .inv, stage := .validating }

/-- 42_manchester_line_decoder.md section 1 (R93): at capacity no pair is read, whichever it is; decoding stops with
cause `CAP` and the buffer as it is. -/
def Obligations.CapacityStopsBeforeThePair : Prop :=
  ∀ (s : State) (i : Instr), i = .pairFall ∨ i = .pairRise ∨ i = .pairInv00 ∨ i = .pairInv11 →
    s.cfg.legal = true → s.nbits = s.cfg.cap * 8 →
    exec i s = .next { s with stopCause := some .cap, stage := .validating }

/-- 42_manchester_line_decoder.md section 2 (R105, an inference of the spec) with R92 to R100: `decode` takes the
leading valid pairs up to the capacity, bit `n` of the buffer is the second bit of pair `n`, every later bit is 0, and
the cause is the first of the three tests that holds. -/
def Obligations.DecodeTakesTheLeadingValidPairs : Prop :=
  ∀ (row : Row) (start cap : Nat),
    let d := decodeLine row start cap
    d.nbits ≤ cap * 8 ∧ d.pos = start + 2 * d.nbits ∧ Memory.wf d.buf = true ∧
    (∀ n, n < d.nbits → ValidPairAt row start n ∧ Memory.bit d.buf n = row.bit (start + 2 * n + 1)) ∧
    (∀ n, d.nbits ≤ n → Memory.bit d.buf n = false) ∧
    (d.cause = .cap ↔ d.nbits = cap * 8) ∧
    (d.cause = .exhausted ↔ d.nbits < cap * 8 ∧ row.len ≤ d.pos + 1) ∧
    (d.cause = .inv ↔ d.nbits < cap * 8 ∧ d.pos + 1 < row.len ∧ row.bit d.pos = row.bit (d.pos + 1))

/-- 42_manchester_line_decoder.md R104: decoding the line-code image of a byte string gives the bytes back, the first
`cap` of them when there are more, 0 beyond, with the started count to match. -/
def Obligations.ManchesterRoundTrip : Prop :=
  ∀ (bytes : List Byte) (cap : Nat),
    let d := decodeLine (Row.ofBits (mc bytes)) 0 cap
    (∀ k, Memory.read d.buf k = if k < cap then bytes.getD k 0#8 else 0#8) ∧
    bytesStarted d.nbits = min bytes.length cap

/-- 42_manchester_line_decoder.md R90 in the block (`start_offset = sync_end`, `capacity = CAP`): `DECODE` in its
stage answers a next state that holds the function's result. -/
def Obligations.DecodeInstructionStoresItsResult : Prop :=
  ∀ s : State, s.cfg.legal = true → s.stage = .decoding → s.found = true →
    let d := decodeLine s.row s.syncEnd s.cfg.cap
    exec .decode s = .next { s with
      pos := d.pos, nbits := d.nbits, buf := d.buf, stopCause := some d.cause, stage := .validating }

/-- 10_state.md section 3 (R13): with `found = 0` the offset `sync_end` must not be read, so `DECODE` has no start
offset and stops. The stop is the model's (log entry 6). -/
def Obligations.DecodeWithoutAFoundSyncStops : Prop :=
  ∀ s : State, s.cfg.legal = true → s.found = false → s.stage = .decoding ∨ s.busy = false →
    exec .decode s = .fault .syncEndUnreadable

/-- 42_manchester_line_decoder.md section 3 and R108's count (inferences of the spec): from the entry to `DECODING`,
`nbits + 1` quiet steps, at most `CAP*8 + 1`, end exactly in the state `DECODE` answers. -/
def Obligations.DecodingStepsRunDecode : Prop :=
  ∀ s : State, s.cfg.legal = true → s.stage = .decoding → s.found = true → s.pos = s.syncEnd → s.nbits = 0 →
    s.buf = [] → s.inputs = [] →
    let d := decodeLine s.row s.syncEnd s.cfg.cap
    d.nbits + 1 ≤ s.cfg.cap * 8 + 1 ∧ Host.Core.run Sys2Proof.core (d.nbits + 1) s = exec .decode s

/-- 10_state.md R16, 42_manchester_line_decoder.md R99: the started count is the least number of bytes that hold the
decoded bits, so a byte with one bit counts, and it is at most `CAP` for at most `CAP*8` bits. -/
def Obligations.StartedBytesAreTheCeiling : Prop :=
  (∀ nbits k, bytesStarted nbits ≤ k ↔ nbits ≤ 8 * k) ∧
  [0, 1, 8, 9, 48, 49, 56, 57, 64].map bytesStarted = [0, 1, 1, 2, 6, 7, 7, 8, 8]

/-! The frame validator and extractor. -/

/-- 43_frame_validator_extractor.md R113: with enough started bytes a power frame is emitted; in the printed layout its
powers are the three 15-bit fields, whatever `r` and the `x` bits hold. `time` is the host's. Under another layout the
formula takes what it wants beside the slots `a`, `b`, `c` from the buffer and not from `r` and the `x` operands: the
model's choice (log entry 12). -/
def Obligations.PowerFrameIsEmitted : Prop :=
  ∀ (s : State) (r : BitVec 8) (x0 x1 x2 : BitVec 1) (a b c : BitVec 15),
    s.cfg.legal = true → s.cfg.minBytes ≤ s.started →
    let power (k : Nat) : Power := powerOf s.cfg (slotView a b c s.buf) k
    (∃ time n, exec (.framePower r x0 a x1 b x2 c) s = .next { s with
      stage := .emit, recordValid := true, power0 := power 0, power1 := power 1, power2 := power 2,
      time := some time, clockReads := n }) ∧
    (s.cfg.printedLayout → power 0 = 0#1 ++ a ∧ power 1 = 0#1 ++ b ∧ power 2 = 0#1 ++ c)

/-- 43_frame_validator_extractor.md R112, R115: with enough started bytes, any other frame is a `TYPE_MISMATCH`
drop; a drop writes the stage and the reason only (60_exceptions.md R146). -/
def Obligations.OtherFramesAreDropped : Prop :=
  ∀ (s : State) (tag : BitVec 8) (rest : BitVec 56), s.cfg.legal = true → s.cfg.minBytes ≤ s.started →
    exec (.frameOther tag rest) s = .next { s with stage := .drop, dropReason := some .typeMismatch }

/-- 43_frame_validator_extractor.md R111, R115: with fewer than `MIN_BYTES` started bytes both frame types and
`VALIDATE_EXTRACT` end in a `TRUNCATED` drop, "regardless of content", and so does the `VALIDATING` step;
`bytes_started >= 7` holds exactly when `nbits >= 49`. -/
def Obligations.ShortBuffersAreTruncated : Prop :=
  (∀ nbits, 7 ≤ bytesStarted nbits ↔ 49 ≤ nbits) ∧
  (∀ s : State, s.cfg.legal = true → s.stage = .validating → s.undisturbed → s.started < s.cfg.minBytes →
    step s = .next { s with inputs := s.inputs.tail, stage := .drop, dropReason := some .truncated }) ∧
  ∀ (s : State) (i : Instr),
    (∃ r x0 a x1 b x2 c, i = .framePower r x0 a x1 b x2 c) ∨ (∃ tag rest, i = .frameOther tag rest) ∨
      (i = .validateExtract ∧ s.stage = .validating) →
    s.cfg.legal = true → s.started < s.cfg.minBytes →
    exec i s = .next { s with stage := .drop, dropReason := some .truncated }

/-- 43_frame_validator_extractor.md R110, R115, in the byte formula of R113: `VALIDATE_EXTRACT` in its stage. The offsets
and the mask are the configuration's (00_scope.md R9); in the printed layout the powers are R113's written-out ones. That
a power without a field, where `N_FIELDS` is below 3, is 0 is the model's choice (log entry 12). -/
def Obligations.ValidateExtractFollowsTheRule : Prop :=
  ∀ s : State, s.cfg.legal = true → s.stage = .validating →
    let field (mask : Byte) (hi lo : Nat) : Power :=
      (Memory.read s.buf hi &&& mask).setWidth 16 <<< 8 ||| (Memory.read s.buf lo).setWidth 16
    let power (k : Nat) : Power :=
      if k < s.cfg.nFields then field s.cfg.highMask (s.cfg.fieldBase + 2 * k) (s.cfg.fieldBase + 2 * k + 1) else 0#16
    (s.started < s.cfg.minBytes →
      exec .validateExtract s = .next { s with stage := .drop, dropReason := some .truncated }) ∧
    (s.cfg.minBytes ≤ s.started → Memory.read s.buf 0 ≠ s.cfg.typeMarker →
      exec .validateExtract s = .next { s with stage := .drop, dropReason := some .typeMismatch }) ∧
    (s.cfg.minBytes ≤ s.started → Memory.read s.buf 0 = s.cfg.typeMarker →
      ∃ time n, exec .validateExtract s = .next { s with
        stage := .emit, recordValid := true, power0 := power 0, power1 := power 1, power2 := power 2,
        time := some time, clockReads := n }) ∧
    (∀ k, (power k).toNat ≤ s.cfg.powerMax) ∧
    (s.cfg.printedLayout → power 0 = field 0x7F#8 2 3 ∧ power 1 = field 0x7F#8 4 5 ∧ power 2 = field 0x7F#8 6 7 ∧
      s.cfg.powerMax = 32767)

/-- 30_encoding.md R59, 43_frame_validator_extractor.md R114: two buffers that differ only in byte 1 and in the top
bits of bytes 2, 4 and 6 give the same answer, in every other register too (second clause). The first clause says it for
every layout a configuration can have (00_scope.md R9, log entry 12): only byte 0, the masked high bytes and the low
bytes of the fields count. -/
def Obligations.ReservedBitsDoNotMatter : Prop :=
  ∀ (s t : State) (buf' : Memory), s.stage = .validating → exec .validateExtract s = .next t →
    (Memory.read buf' 0 = Memory.read s.buf 0 →
      (∀ k, k < s.cfg.nFields →
        Memory.read buf' (s.cfg.fieldBase + 2 * k) &&& s.cfg.highMask =
          Memory.read s.buf (s.cfg.fieldBase + 2 * k) &&& s.cfg.highMask ∧
        Memory.read buf' (s.cfg.fieldBase + 2 * k + 1) = Memory.read s.buf (s.cfg.fieldBase + 2 * k + 1)) →
      exec .validateExtract { s with buf := buf' } = .next { t with buf := buf' }) ∧
    (s.cfg.printedLayout →
      (∀ k, k = 0 ∨ k = 3 ∨ k = 5 ∨ k = 7 → Memory.read buf' k = Memory.read s.buf k) →
      (∀ k, k = 2 ∨ k = 4 ∨ k = 6 → Memory.read buf' k &&& 0x7F#8 = Memory.read s.buf k &&& 0x7F#8) →
      exec .validateExtract { s with buf := buf' } = .next { t with buf := buf' })

/-- 43_frame_validator_extractor.md sections 1 and 2 with 30_encoding.md section 1: fetching the frame from the
buffer and running it is `VALIDATE_EXTRACT`, whose powers come from the byte formula. -/
def Obligations.ValidatingStepIsValidateExtract : Prop :=
  ∀ s : State, s.stage = .validating → s.undisturbed →
    step s = exec .validateExtract { s with inputs := s.inputs.tail }

/-! The decode session. -/

/-- 10_state.md R26, 44_decode_session.md R133: a start in `IDLE`, `EMIT` or `DROP` puts every register of R10 at its
start value, whatever it held, and the row is the one presented. What becomes of the model's own fields `inputs`,
`time`, `clockReads` and `answer` is the model's choice (log entries 3, 4, 7), and so is that the row is in the host's row
memory too (log entry 22). -/
def Obligations.StartSetsEveryRegister : Prop :=
  ∀ (s : State) (row : Row), s.cfg.legal = true → s.stage = .idle ∨ s.stage = .emit ∨ s.stage = .drop →
    s.nextInput = .start row → s.cfg.admitsLen row.len = true →
    step s = .next {
      cfg := s.cfg, row := row, hostRow := row, inputs := s.inputs.tail, stage := .seeking, i := 0, p := 0, found := false,
      syncEnd := 0, pos := 0, nbits := 0, buf := [], stopCause := none, recordValid := false, dropReason := none,
      power0 := 0#16, power1 := 0#16, power2 := 0#16, time := none, clockReads := s.clockReads, answer := s.answer }

/-- 44_decode_session.md R133: a start is accepted in `IDLE`, `EMIT` and `DROP` with its row; while `SEEKING`,
`DECODING` or `VALIDATING` it is not accepted: the step is the one it would have been without it; `done` is 1 exactly in
`EMIT` and `DROP`, and then `record_valid` says whether there is a record. The third clause's premise is the invariant. -/
def Obligations.StartAndDoneHandshake : Prop :=
  (∀ (s : State) (row : Row) (rest : List HostInput), s.busy = true →
    step { s with inputs := .start row :: rest } = step { s with inputs := .quiet :: rest }) ∧
  (∀ s : State, s.done = true ↔ s.stage = .emit ∨ s.stage = .drop) ∧
  (∀ s : State, BlockInv s → s.done = true →
    (s.recordValid = true → ∃ r, s.record = some r) ∧ (s.recordValid = false → s.record = none)) ∧
  (∀ (s : State) (row : Row), s.cfg.legal = true → s.stage = .idle ∨ s.stage = .emit ∨ s.stage = .drop →
    s.nextInput = .start row → s.cfg.admitsLen row.len = true →
    ∃ t, step s = .next t ∧ t.stage = .seeking ∧ t.row = row)

/-- 60_exceptions.md R156, 44_decode_session.md R128: in `IDLE`, `EMIT` and `DROP` no step changes anything until the
host asks. -/
def Obligations.NothingChangesWithoutARequest : Prop :=
  ∀ s : State, s.cfg.legal = true → s.busy = false → s.nextInput = .quiet →
    step s = .next { s with inputs := s.inputs.tail }

/-- 44_decode_session.md R126 (the stages run "in this order and no other"): a stage operation asked for while another
stage runs is turned away with no effect. The model's choice for these requests (log entry 6). -/
def Obligations.OperationsOfAnotherStageAreTurnedAway : Prop :=
  ∀ s : State, s.cfg.legal = true → s.busy = true →
    (s.stage ≠ .seeking → exec .seek s = .next s) ∧
    (s.stage ≠ .decoding → exec .decode s = .next s) ∧
    (s.stage ≠ .validating → exec .validateExtract s = .next s)

/-- 44_decode_session.md R127: `SEEKING → DECODING → VALIDATING → {EMIT | DROP}`, strictly linear; `DROP` is entered
from `SEEKING` and from `VALIDATING`; no way back to `SEEKING` within an invocation. Reset apart. -/
def Obligations.StagesMoveForwardOnly : Prop :=
  ∀ s t : State, s.nextInput ≠ .reset → step s = .next t →
    (s.stage = .seeking → t.stage = .seeking ∨ t.stage = .decoding ∨ t.stage = .drop) ∧
    (s.stage = .decoding → t.stage = .decoding ∨ t.stage = .validating) ∧
    (s.stage = .validating → t.stage = .emit ∨ t.stage = .drop) ∧
    (s.busy = false → (∀ op, s.nextInput ≠ .call op) →
      t.stage = s.stage ∨ ((∃ row, s.nextInput = .start row) ∧ t.stage = .seeking) ∨
        ((∃ bytes count, s.nextInput = .bypass bytes count) ∧ t.stage = .validating))

/-- 44_decode_session.md R125, R126: `DECODE_ROW` when the block is not busy is `seek`, then `decode` from the offset
it returns, then `validate_extract`; each failure is a drop with its reason and no record, success is a record with
the powers. -/
def Obligations.DecodeRowRunsTheThreeStages : Prop :=
  ∀ (s : State) (row : Row), s.cfg.legal = true → s.busy = false → s.cfg.admitsLen row.len = true →
    ∃ t, exec (.decodeRow row) s = .next t ∧ t.row = row ∧ t.cfg = s.cfg ∧ t.inputs = s.inputs ∧
      match seek row s.cfg.syncPattern s.cfg.syncLen with
      | none =>
          t.stage = .drop ∧ t.dropReason = some .noSync ∧ t.found = false ∧ t.syncEnd = 0 ∧ t.nbits = 0 ∧
            t.buf = [] ∧ t.stopCause = none ∧ t.record = none
      | some o =>
          let d := decodeLine row o s.cfg.cap
          t.found = true ∧ t.syncEnd = o ∧ t.pos = d.pos ∧ t.nbits = d.nbits ∧ t.buf = d.buf ∧
            t.stopCause = some d.cause ∧
            match validateFrame s.cfg d.buf (bytesStarted d.nbits) with
            | .reject reason =>
                t.stage = .drop ∧ t.dropReason = some reason ∧ t.record = none ∧
                  t.power0 = 0#16 ∧ t.power1 = 0#16 ∧ t.power2 = 0#16
            | .frame p0 p1 p2 =>
                t.stage = .emit ∧ t.dropReason = none ∧
                  ∃ time, t.record = some ⟨time, s.cfg.modelLabel, p0, p1, p2, none, none⟩

/-- 00_scope.md R7 and 70_reset_and_hazards.md section 4 (the step bounds are inferences of the spec): from an accepted
start, a bounded number of quiet steps ends exactly in the state `DECODE_ROW` answers: the step-level machine refines
the function. -/
def Obligations.StepsRunDecodeRow : Prop :=
  ∀ (s : State) (row : Row), s.cfg.legal = true → s.busy = false → s.cfg.admitsLen row.len = true →
    s.inputs = [.start row] →
    ∃ n, n ≤ 1 + (row.len * s.cfg.syncLen + 1) + (s.cfg.cap * 8 + 1) + 1 ∧
      Host.Core.run Sys2Proof.core n s = exec (.decodeRow row) { s with inputs := [] }

/-- 00_scope.md R8, 20_memory.md R33: the outcome of an invocation depends on the row bits below `len`, on `len` and
on the configuration only; not on what the packed bytes hold beyond `len` and not on what any earlier invocation left.
`time` apart. -/
def Obligations.DecodeRowDependsOnTheRowBitsOnly : Prop :=
  ∀ (s s' : State) (row row' : Row), s.cfg = s'.cfg → s.cfg.legal = true → s.busy = false → s'.busy = false →
    SameBits row row' → s.cfg.admitsLen row.len = true →
    ∃ t t', exec (.decodeRow row) s = .next t ∧ exec (.decodeRow row') s' = .next t' ∧
      t.stage = t'.stage ∧ t.i = t'.i ∧ t.p = t'.p ∧ t.found = t'.found ∧ t.syncEnd = t'.syncEnd ∧
      t.pos = t'.pos ∧ t.nbits = t'.nbits ∧ t.buf = t'.buf ∧ t.stopCause = t'.stopCause ∧
      t.recordValid = t'.recordValid ∧ t.dropReason = t'.dropReason ∧
      t.power0 = t'.power0 ∧ t.power1 = t'.power1 ∧ t.power2 = t'.power2

/-- 44_decode_session.md R139, for any noise and any eight bytes behind the marker: noise, then the pattern, then the
line code of a power frame, the noise and the pattern holding no earlier occurrence. The document's frame, in the
printed layout, is the case `01 2C 00 64 00 FA`, powers 300, 100, 250. -/
def Obligations.NoisePatternAndFrameEmitThePowers : Prop :=
  ∀ (s : State) (noise : List Bool) (b1 b2 b3 b4 b5 b6 b7 : Byte),
    s.cfg.legal = true → s.cfg.cap = 8 → s.busy = false →
    (∀ t, t < noise.length →
      ¬ OccursAt (Row.ofBits (noise ++ s.cfg.syncPattern)) s.cfg.syncPattern s.cfg.syncLen t) →
    let bytes := [s.cfg.typeMarker, b1, b2, b3, b4, b5, b6, b7]
    let row := Row.ofBits (noise ++ s.cfg.syncPattern ++ mc bytes)
    let power (k : Nat) : Power := powerOf s.cfg (fun k => bytes.getD k 0#8) k
    s.cfg.admitsLen row.len = true →
    row.len = noise.length + s.cfg.syncLen + 128 ∧
    seek row s.cfg.syncPattern s.cfg.syncLen = some (noise.length + s.cfg.syncLen) ∧
    (∃ t time, exec (.decodeRow row) s = .next t ∧ t.stage = .emit ∧ t.nbits = 64 ∧ t.stopCause = some .cap ∧
      (∀ k, Memory.read t.buf k = bytes.getD k 0#8) ∧
      t.record = some ⟨time, s.cfg.modelLabel, power 0, power 1, power 2, none, none⟩) ∧
    (s.cfg.printedLayout → b2 = 0x01#8 → b3 = 0x2C#8 → b4 = 0x00#8 → b5 = 0x64#8 → b6 = 0x00#8 → b7 = 0xFA#8 →
      power 0 = 300#16 ∧ power 1 = 100#16 ∧ power 2 = 250#16)

/-- 44_decode_session.md R135: the adapter goes from `IDLE`, `EMIT` or `DROP` straight to `VALIDATING` with the host's
bytes and `nbits <- 8 * count`, `0 <= count <= CAP`; as a whole, `VALIDATE_BYTES` is `validate_extract(bytes, count)`.
A count or a byte list outside the rule is refused (log entry 8). -/
def Obligations.ValidateBytesSkipsSearchAndDecode : Prop :=
  ∀ (s : State) (bytes : List Byte) (count : Nat), s.cfg.legal = true → s.busy = false →
    (bytes.length = s.cfg.cap → count ≤ s.cfg.cap →
      (s.nextInput = .bypass bytes count →
        ∃ u, step s = .next u ∧ u.stage = .validating ∧ u.nbits = 8 * count ∧ u.started = count ∧
          ∀ k, Memory.read u.buf k = bytes.getD k 0#8) ∧
      ∃ t, exec (.validateBytes bytes count) s = .next t ∧
        match validateFrame s.cfg (Memory.ofBytes bytes) count with
        | .reject reason => t.stage = .drop ∧ t.dropReason = some reason ∧ t.record = none
        | .frame p0 p1 p2 => t.stage = .emit ∧
            ∃ time, t.record = some ⟨time, s.cfg.modelLabel, p0, p1, p2, none, none⟩) ∧
    (¬ (bytes.length = s.cfg.cap ∧ count ≤ s.cfg.cap) →
      exec (.validateBytes bytes count) s = .refused .adapterInput)

/-- 44_decode_session.md R131, R132: whatever a `VALIDATING` step emits is a record with some `time`, the constant
label, the three powers, and `rc` and `battery` absent. The element types of these two are the model's choice (log
entry 23). -/
def Obligations.EmittedRecordHasLabelAndPowers : Prop :=
  ∀ s t : State, s.stage = .validating → s.undisturbed → step s = .next t → t.stage = .emit →
    ∃ time, t.record = some
      { time := time, model := s.cfg.modelLabel, power0 := powerOf s.cfg (Memory.read s.buf) 0,
        power1 := powerOf s.cfg (Memory.read s.buf) 1, power2 := powerOf s.cfg (Memory.read s.buf) 2, rc := none, battery := none }

/-- 60_exceptions.md R146, R145: a drop writes the stage and the reason and nothing else, leaves `record_valid` 0 and
the powers 0, and its reason names the first check, in stage order, that failed. -/
def Obligations.DropWritesStageAndReasonOnly : Prop :=
  ∀ s t : State, BlockInv s → s.busy = true → s.undisturbed → step s = .next t → t.stage = .drop →
    ∃ reason, t = { s with inputs := s.inputs.tail, stage := .drop, dropReason := some reason } ∧
      t.recordValid = false ∧ t.power0 = 0#16 ∧ t.power1 = 0#16 ∧ t.power2 = 0#16 ∧ t.record = none ∧
      (reason = .noSync ↔ s.stage = .seeking) ∧
      (reason = .truncated ↔ s.stage = .validating ∧ s.started < s.cfg.minBytes) ∧
      (reason = .typeMismatch ↔ s.stage = .validating ∧ s.cfg.minBytes ≤ s.started ∧
        Memory.read s.buf 0 ≠ s.cfg.typeMarker)

/-! Reset, the configuration, the host's duties. -/

/-- 70_reset_and_hazards.md R160, 10_state.md R25: reset in any stage puts every register at its value after reset,
abandons an invocation without a record and without a drop reason, and leaves the constants and the host's row. What
becomes of `inputs`, `time`, `clockReads` and `answer` is the model's choice (log entries 3, 4, 7). -/
def Obligations.ResetPutsEveryRegisterBack : Prop :=
  ∀ s : State, s.cfg.legal = true → s.nextInput = .reset →
    step s = .next {
      cfg := s.cfg, row := s.row, hostRow := s.hostRow, inputs := s.inputs.tail, stage := .idle, i := 0, p := 0, found := false,
      syncEnd := 0, pos := 0, nbits := 0, buf := [], stopCause := none, recordValid := false, dropReason := none,
      power0 := 0#16, power1 := 0#16, power2 := 0#16, time := none, clockReads := s.clockReads, answer := none }

/-- 10_state.md R25, column "value after reset", and the values 00_scope.md R5 prints for the constants: what the state
after power-on reset holds. -/
def Obligations.ResetStateIsTheResetTable : Prop :=
  let s := State.reset
  s.stage = .idle ∧ s.i = 0 ∧ s.p = 0 ∧ s.found = false ∧ s.syncEnd = 0 ∧ s.pos = 0 ∧ s.nbits = 0 ∧
  (∀ k, Memory.read s.buf k = 0#8) ∧ s.stopCause = none ∧ s.recordValid = false ∧ s.dropReason = none ∧
  s.power0 = 0#16 ∧ s.power1 = 0#16 ∧ s.power2 = 0#16 ∧ s.record = none ∧ s.done = false ∧
  s.cfg.syncLen = 45 ∧ s.cfg.syncPattern.length = 45 ∧ s.cfg.cap = 8 ∧ s.cfg.minBytes = 7 ∧
  s.cfg.typeMarker = 0x0D#8 ∧ s.cfg.nFields = 3 ∧ s.cfg.fieldBase = 2 ∧ s.cfg.highMask = 0x7F#8 ∧
  s.cfg.powerMax = 32767 ∧ s.cfg.modelLabel = "CurrentCost TX" ∧ s.cfg.legal = true

/-- 00_scope.md R6 (a) to (e): a configuration that breaks one of the constraints is refused by every step and every
instruction. The spec marks (b), (c) and (e) as its own inferences; (d) holds of every byte. -/
def Obligations.IllegalConfigurationIsRefused : Prop :=
  ∀ (s : State) (i : Instr),
    ¬ (1 ≤ s.cfg.syncLen ∧ s.cfg.fieldBase + 2 * s.cfg.nFields ≤ s.cfg.cap ∧
        1 ≤ s.cfg.minBytes ∧ s.cfg.minBytes ≤ s.cfg.cap ∧
        0 ≤ s.cfg.typeMarker.toNat ∧ s.cfg.typeMarker.toNat ≤ 255 ∧
        (∀ w m, s.cfg.idxW = some w → s.cfg.maxLen = some m → m + 2 ≤ 2 ^ w)) →
    step s = .refused .illegalConfiguration ∧ exec i s = .refused .illegalConfiguration

/-- 20_memory.md R49, 93_implementation_defined.md U3: a lent row that is changed while an invocation runs has no meaning;
the model refuses it. A host write that is no change of a lent row (the same length and bits, 20_memory.md R33; or a run of
the adapter, which is lent no row and reads none) reaches the host's row memory and the step is otherwise the one it would
have been: the model's choice (log entry 22). -/
def Obligations.ChangedRowIsRefused : Prop :=
  ∀ (s : State) (row : Row), s.cfg.legal = true → s.busy = true → s.nextInput = .changeRow row →
    (s.rowLent = true → ¬ SameBits row s.row → step s = .refused .rowChangedDuringInvocation) ∧
    (s.rowLent = false ∨ SameBits row s.row →
      step s = step { s with inputs := .quiet :: s.inputs.tail, hostRow := row })

/-- 20_memory.md sections 3 and 4, 10_state.md section 6: no instruction and no step writes a constant; the borrowed
row is replaced only where a new invocation brings its own, and is immutable while one runs; the block has no write path
to the host's row memory (20_memory.md R43). -/
def Obligations.ConstantsAndRowAreNeverWritten : Prop :=
  (∀ (i : Instr) (s t : State), exec i s = .next t →
    t.cfg = s.cfg ∧ t.inputs = s.inputs ∧ ((∀ row, i ≠ .decodeRow row) → t.row = s.row ∧ t.hostRow = s.hostRow)) ∧
  ∀ s t : State, step s = .next t →
    t.cfg = s.cfg ∧ t.inputs = s.inputs.tail ∧
    (s.busy = true → t.row = s.row ∧
      ((∀ row, s.nextInput ≠ .changeRow row) → t.hostRow = s.hostRow) ∧
      (∀ row, s.nextInput = .changeRow row → t.hostRow = row ∧ (s.rowLent = true → SameBits row s.row)))

/-! Invariants and whole-machine rules. -/

/-- The invariants hold of the state after reset (10_state.md R24, R25). -/
def Obligations.InvariantHoldsAtReset : Prop := BlockInv State.reset ∧ SearchInv State.reset

/-- 10_state.md R24 and 44_decode_session.md R134: every step keeps the invariant, whatever the host does. -/
def Obligations.StepKeepsTheInvariant : Prop :=
  ∀ s t : State, BlockInv s → step s = .next t → BlockInv t

/-- 41_sync_pattern_searcher.md section 2 (the invariant of R82's inference): every step keeps it that no occurrence is
passed over and that `sync_end` is the end of the first one. -/
def Obligations.StepKeepsTheSearchSound : Prop :=
  ∀ s t : State, BlockInv s → SearchInv s → step s = .next t → SearchInv t

/-- 60_exceptions.md section 1 with the bounds inferred in 41 (R83) and 42 (R106): the block itself never asks for a
bit that is not there; a step faults only where the host calls `BIT_AT` out of range, or `DECODE` with nothing found;
and a running invocation that is left alone always has a next state. -/
def Obligations.StepFaultsOnlyOnABadCall : Prop :=
  ∀ s : State, BlockInv s →
    (∀ f, step s = .fault f →
      s.busy = false ∧ ((∃ k, s.nextInput = .call (.bitAt k) ∧ s.hostRow.len ≤ k ∧ f = .rowOutOfRange) ∨
        (s.nextInput = .call .decode ∧ s.found = false ∧ f = .syncEndUnreadable))) ∧
    (s.busy = true → s.undisturbed → ∃ t, step s = .next t)

/-- 70_reset_and_hazards.md section 4 (R176, an inference of the spec): every running invocation that is left alone
ends in `EMIT` or `DROP`, within a bound. -/
def Obligations.EveryInvocationEnds : Prop :=
  ∀ s : State, BlockInv s → s.busy = true → s.inputs = [] →
    ∃ n t, n ≤ s.row.len * s.cfg.syncLen + s.cfg.cap * 8 + 3 ∧ Host.Core.run Sys2Proof.core n s = .next t ∧
      t.done = true

/-- 10_state.md section 8 (R28, an inference of the spec) and 00_scope.md section 4: where `IDX_W` is finite, no index
register and no index the block computes needs more than `IDX_W` bits. -/
def Obligations.IndexRegistersNeverWrap : Prop :=
  ∀ (s : State) (w : Nat), BlockInv s → s.cfg.idxW = some w →
    s.row.len < 2 ^ w ∧ s.i < 2 ^ w ∧ s.i - s.p + 1 < 2 ^ w ∧ s.syncEnd < 2 ^ w ∧ s.pos + 1 < 2 ^ w

/-! A step runs the decoded instruction. -/

/-- With room in the buffer and a whole pair at `pos`, a `DECODING` step is the meaning of the pair the two row bits
decode to, after the host's input is taken. -/
def Obligations.StepRunsTheFetchedPair : Prop :=
  ∀ (s : State) (s1 s0 : Bool), s.cfg.legal = true → s.stage = .decoding → s.undisturbed →
    s.nbits < s.cfg.cap * 8 → s.row.bitAt s.pos = some s1 → s.row.bitAt (s.pos + 1) = some s0 →
    step s = exec (decodePair s1 s0) { s with inputs := s.inputs.tail }

/-- With enough started bytes, a `VALIDATING` step is the meaning of the instruction the buffer's first eight bytes
decode to, after the host's input is taken. -/
def Obligations.StepRunsTheFetchedFrame : Prop :=
  ∀ (s : State) (i : Instr), s.cfg.legal = true → s.stage = .validating → s.undisturbed →
    s.cfg.minBytes ≤ s.started →
    decodeBytes s.cfg.typeMarker ((List.range 8).map (Memory.read s.buf)) = .instr i →
    step s = exec i { s with inputs := s.inputs.tail }

/-- When the block is not busy, a step in which the host calls an operation is the meaning of that operation. The rules
give only that operations are available (60_exceptions.md R151) and are functions (44_decode_session.md R133): that a call
is an input one step takes (log entry 7), with its whole effect in that step (log entry 15), is the model's choice. -/
def Obligations.StepRunsTheCalledOperation : Prop :=
  ∀ (s : State) (op : Instr), s.cfg.legal = true → s.busy = false → s.nextInput = .call op →
    isOperation op = true → step s = exec op { s with inputs := s.inputs.tail }

/-! Requests of the host that no rule spells out, and the ways out of a waiting stage. -/

/-- What 44_decode_session.md R133 says of a start while busy holds of the host's other requests: the adapter's entry and
a call are ignored by a step, and `DECODE_ROW` and `VALIDATE_BYTES` run as functions change nothing. The model's choice
(log entry 7). -/
def Obligations.OtherRequestsWhileBusyAreIgnored : Prop :=
  (∀ (s : State) (x : HostInput) (rest : List HostInput), s.busy = true →
    (∃ bytes count, x = .bypass bytes count) ∨ (∃ op, x = .call op) →
    step { s with inputs := x :: rest } = step { s with inputs := .quiet :: rest }) ∧
  (∀ (s : State) (row : Row) (bytes : List Byte) (count : Nat), s.cfg.legal = true → s.busy = true →
    exec (.decodeRow row) s = .next s ∧ exec (.validateBytes bytes count) s = .next s)

/-- 60_exceptions.md section 4 (R147) and section 9 (R156): in `IDLE`, `EMIT` and `DROP` no register changes until a start,
which is the start request, `DECODE_ROW`, or the adapter's entry (44_decode_session.md R133, R135); reset apart. In
particular no drop occurs in `DROP` and nothing is decoded again. The model's choice: that the other operations give back
a value in `answer` (log entries 4, 6), and that a row the host alters goes to the host's row memory and leaves
`State.row`, the row the last invocation was lent (log entries 7, 22). -/
def Obligations.OnlyAStartLeavesAWaitingStage : Prop :=
  ∀ s t : State, s.busy = false → step s = .next t → s.nextInput ≠ .reset →
    (∀ row, s.nextInput ≠ .start row) → (∀ bytes count, s.nextInput ≠ .bypass bytes count) →
    (∀ row, s.nextInput ≠ .call (.decodeRow row)) →
    (∀ bytes count, s.nextInput ≠ .call (.validateBytes bytes count)) →
    t = { s with inputs := s.inputs.tail, answer := t.answer, hostRow := t.hostRow } ∧
    (∀ row, s.nextInput = .changeRow row → t.hostRow = row ∧ t.answer = s.answer) ∧
    ((∀ row, s.nextInput ≠ .changeRow row) → t.hostRow = s.hostRow)

/-- Three checks of the model's own refuse in the same way: a pattern of another length than `SYNC_LEN` and more power
fields than the three registers (log entry 14), a finite `IDX_W` with no `MAX_LEN` (log entry 11); and nothing else
does: every other configuration that meets 00_scope.md R6 is legal. The model's choice. -/
def Obligations.ModelsOwnConfigurationChecks : Prop :=
  (∀ (s : State) (i : Instr),
    s.cfg.syncPattern.length ≠ s.cfg.syncLen ∨ 3 < s.cfg.nFields ∨ (s.cfg.idxW ≠ none ∧ s.cfg.maxLen = none) →
    step s = .refused .illegalConfiguration ∧ exec i s = .refused .illegalConfiguration) ∧
  ∀ c : Config, 1 ≤ c.syncLen → c.fieldBase + 2 * c.nFields ≤ c.cap → 1 ≤ c.minBytes → c.minBytes ≤ c.cap →
    (∀ w m, c.idxW = some w → c.maxLen = some m → m + 2 ≤ 2 ^ w) →
    c.syncPattern.length = c.syncLen → c.nFields ≤ 3 → (c.idxW = none ∨ c.maxLen ≠ none) → c.legal = true
end

