-- ==== Sys2Proof/Laws/Memory.lean ====
section
/-! SUPPORT. Byte memories: a read after a write, the canonical form is kept, bits set by `BufSetBit`, and packed
bytes read back. -/

namespace Sys2Proof

@[simp] theorem Memory.read_nil (a : Nat) : Memory.read [] a = unlistedByte := rfl

theorem Memory.read_consCell (a' : Nat) (b : Byte) (m : Memory) (a : Nat) :
    Memory.read ((a', b) :: m) a = if a' = a then b else Memory.read m a := rfl

/-- Every listed address is at least `n`. -/
def Memory.allFrom (m : Memory) (n : Nat) : Prop := ∀ c ∈ m, n ≤ c.1

theorem Memory.read_allFrom {m : Memory} {n a : Nat} (h : Memory.allFrom m n) (ha : a < n) :
    Memory.read m a = unlistedByte := by
  induction m with
  | nil => rfl
  | cons c m ih =>
    have hc : n ≤ c.1 := h c (List.mem_cons_self ..)
    have hm : Memory.allFrom m n := fun x hx => h x (List.mem_cons_of_mem _ hx)
    obtain ⟨a', b⟩ := c
    rw [Memory.read_consCell, if_neg (by simp only at hc; omega), ih hm]

/-- The canonical form, one cell at a time. -/
theorem Memory.wf_cons_iff {a : Nat} {b : Byte} {m : Memory} :
    Memory.wf ((a, b) :: m) = true ↔ b ≠ unlistedByte ∧ Memory.allFrom m (a + 1) ∧ Memory.wf m = true := by
  induction m generalizing a b with
  | nil => simp [Memory.wf, Memory.allFrom]
  | cons c m ih =>
    obtain ⟨a', b'⟩ := c
    have step : Memory.wf ((a, b) :: (a', b') :: m) = true ↔
        b ≠ unlistedByte ∧ a < a' ∧ Memory.wf ((a', b') :: m) = true := by
      simp [Memory.wf, and_assoc]
    rw [step]
    constructor
    · rintro ⟨hb, hlt, hw⟩
      refine ⟨hb, ?_, hw⟩
      obtain ⟨_, hf, _⟩ := ih.mp hw
      intro c hc
      rcases List.mem_cons.mp hc with rfl | hc
      · exact hlt
      · exact le_trans (by omega) (hf c hc)
    · rintro ⟨hb, hf, hw⟩
      exact ⟨hb, hf (a', b') (List.mem_cons_self ..), hw⟩

theorem Memory.read_cons (a : Nat) (b : Byte) (m : Memory) (a' : Nat) (h : Memory.allFrom m (a + 1)) :
    Memory.read (Memory.cons a b m) a' = if a' = a then b else Memory.read m a' := by
  unfold Memory.cons
  split
  · rename_i hb
    split
    · rename_i ha
      rw [ha, Memory.read_allFrom h (by omega), hb]
    · rfl
  · rw [Memory.read_consCell]
    simp only [eq_comm]

theorem Memory.cons_wf {a : Nat} {b : Byte} {m : Memory} (h : Memory.allFrom m (a + 1))
    (hw : Memory.wf m = true) : Memory.wf (Memory.cons a b m) = true := by
  unfold Memory.cons
  split
  · exact hw
  · rename_i hb
    exact Memory.wf_cons_iff.mpr ⟨hb, h, hw⟩

theorem Memory.allFrom_cons {a n : Nat} {b : Byte} {m : Memory} (h : Memory.allFrom m n) (ha : n ≤ a) :
    Memory.allFrom (Memory.cons a b m) n := by
  unfold Memory.cons
  split
  · exact h
  · intro c hc
    rcases List.mem_cons.mp hc with rfl | hc
    · exact ha
    · exact h c hc

theorem Memory.allFrom_mono {m : Memory} {n k : Nat} (h : Memory.allFrom m n) (hk : k ≤ n) : Memory.allFrom m k :=
  fun c hc => le_trans hk (h c hc)

theorem Memory.allFrom_write {m : Memory} {n a : Nat} {b : Byte} (h : Memory.allFrom m n) (ha : n ≤ a) :
    Memory.allFrom (Memory.write m a b) n := by
  induction m with
  | nil => exact Memory.allFrom_cons h ha
  | cons c m ih =>
    obtain ⟨a', b'⟩ := c
    have hm : Memory.allFrom m n := fun x hx => h x (List.mem_cons_of_mem _ hx)
    unfold Memory.write
    split
    · exact Memory.allFrom_cons h ha
    · split
      · exact Memory.allFrom_cons hm ha
      · intro c hc
        rcases List.mem_cons.mp hc with rfl | hc
        · exact h _ (List.mem_cons_self ..)
        · exact ih hm c hc

/-- Every write keeps the canonical form. -/
theorem Memory.write_wf {m : Memory} (a : Nat) (b : Byte) (h : Memory.wf m = true) :
    Memory.wf (Memory.write m a b) = true := by
  induction m with
  | nil => exact Memory.cons_wf (fun _ hc => absurd hc (List.not_mem_nil)) h
  | cons c m ih =>
    obtain ⟨a', b'⟩ := c
    obtain ⟨hb, hf, hm⟩ := Memory.wf_cons_iff.mp h
    unfold Memory.write
    split
    · rename_i hlt
      refine Memory.cons_wf (fun c hc => ?_) h
      rcases List.mem_cons.mp hc with rfl | hc
      · exact hlt
      · exact le_trans (by omega) (hf c hc)
    · split
      · rename_i heq
        exact Memory.cons_wf (heq ▸ hf) hm
      · exact Memory.wf_cons_iff.mpr ⟨hb, Memory.allFrom_write hf (by omega), ih hm⟩

/-- A read after a write: the byte written at its address, every other byte as before. -/
theorem Memory.read_write {m : Memory} (a : Nat) (b : Byte) (a' : Nat) (h : Memory.wf m = true) :
    Memory.read (Memory.write m a b) a' = if a' = a then b else Memory.read m a' := by
  induction m with
  | nil =>
    unfold Memory.write
    exact Memory.read_cons a b [] a' (fun _ hc => absurd hc (List.not_mem_nil))
  | cons c m ih =>
    obtain ⟨x, y⟩ := c
    obtain ⟨_, hf, hm⟩ := Memory.wf_cons_iff.mp h
    unfold Memory.write
    split
    · rename_i hlt
      refine Memory.read_cons a b _ a' (fun c hc => ?_)
      rcases List.mem_cons.mp hc with rfl | hc
      · exact hlt
      · exact le_trans (by omega) (hf c hc)
    · split
      · rename_i heq
        subst heq
        rw [Memory.read_cons a b m a' hf, Memory.read_consCell]
        by_cases h' : a' = a
        · simp [h']
        · simp [h', Ne.symm h']
      · rename_i hne
        rw [Memory.read_consCell, Memory.read_consCell, ih hm]
        by_cases h' : x = a'
        · subst h'
          simp [Ne.symm hne]
        · simp [h']

theorem Memory.below_write {m : Memory} {n a : Nat} {b : Byte} (h : Memory.below m n = true) (ha : a < n) :
    Memory.below (Memory.write m a b) n = true := by
  have cons_below : ∀ {m : Memory}, Memory.below m n = true → Memory.below (Memory.cons a b m) n = true := by
    intro m hm
    unfold Memory.cons
    split
    · exact hm
    · simp only [Memory.below, List.all_cons, Bool.and_eq_true, decide_eq_true_eq]
      exact ⟨ha, hm⟩
  induction m with
  | nil => exact cons_below h
  | cons c m ih =>
    obtain ⟨x, y⟩ := c
    have hm : Memory.below m n = true := by
      simp only [Memory.below, List.all_cons, Bool.and_eq_true] at h
      exact h.2
    have hx : x < n := by
      simp only [Memory.below, List.all_cons, Bool.and_eq_true, decide_eq_true_eq] at h
      exact h.1
    unfold Memory.write
    split
    · exact cons_below h
    · split
      · exact cons_below hm
      · simp only [Memory.below, List.all_cons, Bool.and_eq_true, decide_eq_true_eq]
        exact ⟨hx, ih hm⟩

/-- A canonical memory below `n` reads as the unlisted byte from `n` on. -/
theorem Memory.read_below {m : Memory} {n a : Nat} (h : Memory.below m n = true) (ha : n ≤ a) :
    Memory.read m a = unlistedByte := by
  induction m with
  | nil => rfl
  | cons c m ih =>
    obtain ⟨x, y⟩ := c
    simp only [Memory.below, List.all_cons, Bool.and_eq_true, decide_eq_true_eq] at h
    rw [Memory.read_consCell, if_neg (by omega)]
    exact ih h.2

theorem Memory.setBit_wf {m : Memory} (n : Nat) (d : Bool) (h : Memory.wf m = true) :
    Memory.wf (Memory.setBit m n d) = true := Memory.write_wf _ _ h

theorem Memory.below_setBit {m : Memory} {n k : Nat} {d : Bool} (h : Memory.below m k = true) (hn : n < k * 8) :
    Memory.below (Memory.setBit m n d) k = true := Memory.below_write h (by omega)

/-- The one bit that `bitInByte` holds. -/
theorem getLsbD_bitInByte (n : Nat) (d : Bool) (j : Nat) :
    (bitInByte n d).getLsbD j = (decide (j = 7 - n % 8) && d) := by
  unfold bitInByte
  cases d
  · simp
  · by_cases hj : j = 7 - n % 8
    · subst hj
      simp
      omega
    · simp [hj, BitVec.getLsbD_shiftLeft]
      intro _ _
      omega

/-- `BufSetBit(n, d)` sets bit `n` and leaves every other bit (20_memory.md R35). -/
theorem Memory.bit_setBit {m : Memory} (n : Nat) (d : Bool) (k : Nat) (h : Memory.wf m = true) :
    Memory.bit (Memory.setBit m n d) k = (Memory.bit m k || (decide (k = n) && d)) := by
  unfold Memory.bit Memory.setBit
  rw [Memory.read_write _ _ _ h]
  by_cases hq : k / 8 = n / 8
  · rw [if_pos hq, BitVec.getLsbD_or, getLsbD_bitInByte, hq]
    congr 2
    exact decide_eq_decide.mpr ⟨fun _ => by omega, fun _ => by omega⟩
  · rw [if_neg hq]
    have hne : k ≠ n := fun e => hq (by rw [e])
    simp [hne]

theorem Memory.allFrom_ofBytesAt (a : Nat) (bytes : List Byte) : Memory.allFrom (Memory.ofBytesAt a bytes) a := by
  induction bytes generalizing a with
  | nil => exact fun _ hc => absurd hc (List.not_mem_nil)
  | cons b bs ih => exact Memory.allFrom_cons (Memory.allFrom_mono (ih (a + 1)) (by omega)) (le_refl a)

theorem Memory.ofBytesAt_wf (a : Nat) (bytes : List Byte) : Memory.wf (Memory.ofBytesAt a bytes) = true := by
  induction bytes generalizing a with
  | nil => rfl
  | cons b bs ih => exact Memory.cons_wf (Memory.allFrom_ofBytesAt (a + 1) bs) (ih (a + 1))

theorem Memory.read_ofBytesAt (a : Nat) (bytes : List Byte) (k : Nat) :
    Memory.read (Memory.ofBytesAt a bytes) (a + k) = bytes.getD k unlistedByte := by
  induction bytes generalizing a k with
  | nil => simp [Memory.ofBytesAt]
  | cons b bs ih =>
    unfold Memory.ofBytesAt
    rw [Memory.read_cons _ _ _ _ (Memory.allFrom_ofBytesAt (a + 1) bs)]
    cases k with
    | zero => simp
    | succ k =>
      rw [if_neg (by omega), show a + (k + 1) = a + 1 + k from by omega, ih]
      simp

/-- Bytes laid in memory are canonical and read back. -/
theorem Memory.ofBytes_wf (bytes : List Byte) : Memory.wf (Memory.ofBytes bytes) = true := Memory.ofBytesAt_wf 0 bytes

theorem Memory.read_ofBytes (bytes : List Byte) (k : Nat) :
    Memory.read (Memory.ofBytes bytes) k = bytes.getD k unlistedByte := by
  have := Memory.read_ofBytesAt 0 bytes k
  simpa [Memory.ofBytes] using this

theorem Memory.below_ofBytes (bytes : List Byte) :
    Memory.below (Memory.ofBytes bytes) bytes.length = true := by
  have key : ∀ (a : Nat) (bs : List Byte), ∀ c ∈ Memory.ofBytesAt a bs, c.1 < a + bs.length := by
    intro a bs
    induction bs generalizing a with
    | nil => exact fun _ hc => absurd hc (List.not_mem_nil)
    | cons b bs ih =>
      intro c hc
      unfold Memory.ofBytesAt Memory.cons at hc
      simp only [List.length_cons]
      split at hc
      · exact lt_of_lt_of_le (ih (a + 1) c hc) (by omega)
      · rcases List.mem_cons.mp hc with rfl | hc
        · simp only; omega
        · exact lt_of_lt_of_le (ih (a + 1) c hc) (by omega)
  simp only [Memory.below, List.all_eq_true, decide_eq_true_eq]
  intro c hc
  have := key 0 bytes c hc
  omega

@[simp] theorem Memory.bit_nil (n : Nat) : Memory.bit [] n = false := by
  simp [Memory.bit, unlistedByte]

theorem Memory.packFrom_wf {m : Memory} (n : Nat) (bits : List Bool) (h : Memory.wf m = true) :
    Memory.wf (Memory.packFrom m n bits) = true := by
  induction bits generalizing m n with
  | nil => exact h
  | cons b bs ih => exact ih (n + 1) (Memory.setBit_wf n b h)

theorem Memory.below_packFrom {m : Memory} {k : Nat} (n : Nat) (bits : List Bool)
    (h : Memory.below m k = true) (hk : n + bits.length ≤ k * 8) :
    Memory.below (Memory.packFrom m n bits) k = true := by
  induction bits generalizing m n with
  | nil => exact h
  | cons b bs ih =>
    simp only [List.length_cons] at hk
    exact ih (n + 1) (Memory.below_setBit h (by omega)) (by omega)

/-- Packing puts each bit at its own number and leaves the others. -/
theorem Memory.bit_packFrom {m : Memory} (n : Nat) (bits : List Bool) (k : Nat) (h : Memory.wf m = true) :
    Memory.bit (Memory.packFrom m n bits) k = (Memory.bit m k || (decide (n ≤ k) && bits.getD (k - n) false)) := by
  induction bits generalizing m n with
  | nil => simp [Memory.packFrom]
  | cons b bs ih =>
    unfold Memory.packFrom
    rw [ih (n + 1) (Memory.setBit_wf n b h), Memory.bit_setBit n b k h]
    rcases lt_trichotomy k n with hlt | rfl | hgt
    · simp [show ¬ k = n by omega, show ¬ n + 1 ≤ k by omega, show ¬ n ≤ k by omega]
    · simp
    · obtain ⟨j, rfl⟩ : ∃ j, k = n + 1 + j := ⟨k - (n + 1), by omega⟩
      simp [show ¬ n + 1 + j = n by omega, show n ≤ n + 1 + j by omega, show n + 1 + j - n = j + 1 by omega]

/-- The row built from bits holds exactly them (20_memory.md R32). -/
theorem Row.bit_ofBits (bits : List Bool) (k : Nat) : (Row.ofBits bits).bit k = bits.getD k false := by
  unfold Row.bit Row.ofBits
  rw [Memory.bit_packFrom 0 bits k rfl]
  simp

@[simp] theorem Row.len_ofBits (bits : List Bool) : (Row.ofBits bits).len = bits.length := rfl

theorem Row.ofBits_wf (bits : List Bool) : (Row.ofBits bits).wf = true := by
  unfold Row.wf Row.ofBits
  have hk : 0 + bits.length ≤ (bits.length + 7) / 8 * 8 := by omega
  exact Bool.and_eq_true_iff.mpr ⟨Memory.packFrom_wf 0 bits rfl, Memory.below_packFrom 0 bits rfl hk⟩

/-- The bit read of the row's read port is the formula of 40_bitview.md R70. -/
theorem Row.bitAt_eq_some {r : Row} {a : Nat} (h : a < r.len) : r.bitAt a = some (r.bit a) := if_pos h

theorem Row.bitAt_eq_none {r : Row} {a : Nat} (h : r.len ≤ a) : r.bitAt a = none := if_neg (by omega)

end Sys2Proof
end

