-- ==== Sys2Proof/Laws/State.lean ====
section
/-! SUPPORT. One lemma per field per named update of the state, each true by unfolding the update, so that no later
proof unfolds one. -/

namespace Sys2Proof.Machine

variable (s : State)

section raiseDropFields

variable (reason : DropReason)

@[simp] theorem raiseDrop_cfg : (raiseDrop reason s).cfg = s.cfg := rfl
@[simp] theorem raiseDrop_row : (raiseDrop reason s).row = s.row := rfl
@[simp] theorem raiseDrop_hostRow : (raiseDrop reason s).hostRow = s.hostRow := rfl
@[simp] theorem raiseDrop_inputs : (raiseDrop reason s).inputs = s.inputs := rfl
@[simp] theorem raiseDrop_stage : (raiseDrop reason s).stage = .drop := rfl
@[simp] theorem raiseDrop_i : (raiseDrop reason s).i = s.i := rfl
@[simp] theorem raiseDrop_p : (raiseDrop reason s).p = s.p := rfl
@[simp] theorem raiseDrop_found : (raiseDrop reason s).found = s.found := rfl
@[simp] theorem raiseDrop_syncEnd : (raiseDrop reason s).syncEnd = s.syncEnd := rfl
@[simp] theorem raiseDrop_pos : (raiseDrop reason s).pos = s.pos := rfl
@[simp] theorem raiseDrop_nbits : (raiseDrop reason s).nbits = s.nbits := rfl
@[simp] theorem raiseDrop_buf : (raiseDrop reason s).buf = s.buf := rfl
@[simp] theorem raiseDrop_stopCause : (raiseDrop reason s).stopCause = s.stopCause := rfl
@[simp] theorem raiseDrop_recordValid : (raiseDrop reason s).recordValid = s.recordValid := rfl
@[simp] theorem raiseDrop_dropReason : (raiseDrop reason s).dropReason = some reason := rfl
@[simp] theorem raiseDrop_power0 : (raiseDrop reason s).power0 = s.power0 := rfl
@[simp] theorem raiseDrop_power1 : (raiseDrop reason s).power1 = s.power1 := rfl
@[simp] theorem raiseDrop_power2 : (raiseDrop reason s).power2 = s.power2 := rfl
@[simp] theorem raiseDrop_time : (raiseDrop reason s).time = s.time := rfl
@[simp] theorem raiseDrop_clockReads : (raiseDrop reason s).clockReads = s.clockReads := rfl
@[simp] theorem raiseDrop_answer : (raiseDrop reason s).answer = s.answer := rfl

end raiseDropFields

section emitRecordFields

variable (p0 p1 p2 : Power)

@[simp] theorem emitRecord_cfg : (emitRecord p0 p1 p2 s).cfg = s.cfg := rfl
@[simp] theorem emitRecord_row : (emitRecord p0 p1 p2 s).row = s.row := rfl
@[simp] theorem emitRecord_hostRow : (emitRecord p0 p1 p2 s).hostRow = s.hostRow := rfl
@[simp] theorem emitRecord_inputs : (emitRecord p0 p1 p2 s).inputs = s.inputs := rfl
@[simp] theorem emitRecord_stage : (emitRecord p0 p1 p2 s).stage = .emit := rfl
@[simp] theorem emitRecord_i : (emitRecord p0 p1 p2 s).i = s.i := rfl
@[simp] theorem emitRecord_p : (emitRecord p0 p1 p2 s).p = s.p := rfl
@[simp] theorem emitRecord_found : (emitRecord p0 p1 p2 s).found = s.found := rfl
@[simp] theorem emitRecord_syncEnd : (emitRecord p0 p1 p2 s).syncEnd = s.syncEnd := rfl
@[simp] theorem emitRecord_pos : (emitRecord p0 p1 p2 s).pos = s.pos := rfl
@[simp] theorem emitRecord_nbits : (emitRecord p0 p1 p2 s).nbits = s.nbits := rfl
@[simp] theorem emitRecord_buf : (emitRecord p0 p1 p2 s).buf = s.buf := rfl
@[simp] theorem emitRecord_stopCause : (emitRecord p0 p1 p2 s).stopCause = s.stopCause := rfl
@[simp] theorem emitRecord_recordValid : (emitRecord p0 p1 p2 s).recordValid = true := rfl
@[simp] theorem emitRecord_dropReason : (emitRecord p0 p1 p2 s).dropReason = s.dropReason := rfl
@[simp] theorem emitRecord_power0 : (emitRecord p0 p1 p2 s).power0 = p0 := rfl
@[simp] theorem emitRecord_power1 : (emitRecord p0 p1 p2 s).power1 = p1 := rfl
@[simp] theorem emitRecord_power2 : (emitRecord p0 p1 p2 s).power2 = p2 := rfl
@[simp] theorem emitRecord_time : (emitRecord p0 p1 p2 s).time = some (Config.hostTime s.clockReads) := rfl
@[simp] theorem emitRecord_clockReads : (emitRecord p0 p1 p2 s).clockReads = s.clockReads + 1 := rfl
@[simp] theorem emitRecord_answer : (emitRecord p0 p1 p2 s).answer = s.answer := rfl

end emitRecordFields

section returnAnswerFields

variable (a : Answer)

@[simp] theorem returnAnswer_cfg : (returnAnswer a s).cfg = s.cfg := rfl
@[simp] theorem returnAnswer_row : (returnAnswer a s).row = s.row := rfl
@[simp] theorem returnAnswer_hostRow : (returnAnswer a s).hostRow = s.hostRow := rfl
@[simp] theorem returnAnswer_inputs : (returnAnswer a s).inputs = s.inputs := rfl
@[simp] theorem returnAnswer_stage : (returnAnswer a s).stage = s.stage := rfl
@[simp] theorem returnAnswer_i : (returnAnswer a s).i = s.i := rfl
@[simp] theorem returnAnswer_p : (returnAnswer a s).p = s.p := rfl
@[simp] theorem returnAnswer_found : (returnAnswer a s).found = s.found := rfl
@[simp] theorem returnAnswer_syncEnd : (returnAnswer a s).syncEnd = s.syncEnd := rfl
@[simp] theorem returnAnswer_pos : (returnAnswer a s).pos = s.pos := rfl
@[simp] theorem returnAnswer_nbits : (returnAnswer a s).nbits = s.nbits := rfl
@[simp] theorem returnAnswer_buf : (returnAnswer a s).buf = s.buf := rfl
@[simp] theorem returnAnswer_stopCause : (returnAnswer a s).stopCause = s.stopCause := rfl
@[simp] theorem returnAnswer_recordValid : (returnAnswer a s).recordValid = s.recordValid := rfl
@[simp] theorem returnAnswer_dropReason : (returnAnswer a s).dropReason = s.dropReason := rfl
@[simp] theorem returnAnswer_power0 : (returnAnswer a s).power0 = s.power0 := rfl
@[simp] theorem returnAnswer_power1 : (returnAnswer a s).power1 = s.power1 := rfl
@[simp] theorem returnAnswer_power2 : (returnAnswer a s).power2 = s.power2 := rfl
@[simp] theorem returnAnswer_time : (returnAnswer a s).time = s.time := rfl
@[simp] theorem returnAnswer_clockReads : (returnAnswer a s).clockReads = s.clockReads := rfl
@[simp] theorem returnAnswer_answer : (returnAnswer a s).answer = some a := rfl

end returnAnswerFields

section alterRowFields

variable (row : Row)

@[simp] theorem alterRow_cfg : (alterRow row s).cfg = s.cfg := rfl
@[simp] theorem alterRow_row : (alterRow row s).row = s.row := rfl
@[simp] theorem alterRow_hostRow : (alterRow row s).hostRow = row := rfl
@[simp] theorem alterRow_inputs : (alterRow row s).inputs = s.inputs := rfl
@[simp] theorem alterRow_stage : (alterRow row s).stage = s.stage := rfl
@[simp] theorem alterRow_i : (alterRow row s).i = s.i := rfl
@[simp] theorem alterRow_p : (alterRow row s).p = s.p := rfl
@[simp] theorem alterRow_found : (alterRow row s).found = s.found := rfl
@[simp] theorem alterRow_syncEnd : (alterRow row s).syncEnd = s.syncEnd := rfl
@[simp] theorem alterRow_pos : (alterRow row s).pos = s.pos := rfl
@[simp] theorem alterRow_nbits : (alterRow row s).nbits = s.nbits := rfl
@[simp] theorem alterRow_buf : (alterRow row s).buf = s.buf := rfl
@[simp] theorem alterRow_stopCause : (alterRow row s).stopCause = s.stopCause := rfl
@[simp] theorem alterRow_recordValid : (alterRow row s).recordValid = s.recordValid := rfl
@[simp] theorem alterRow_dropReason : (alterRow row s).dropReason = s.dropReason := rfl
@[simp] theorem alterRow_power0 : (alterRow row s).power0 = s.power0 := rfl
@[simp] theorem alterRow_power1 : (alterRow row s).power1 = s.power1 := rfl
@[simp] theorem alterRow_power2 : (alterRow row s).power2 = s.power2 := rfl
@[simp] theorem alterRow_time : (alterRow row s).time = s.time := rfl
@[simp] theorem alterRow_clockReads : (alterRow row s).clockReads = s.clockReads := rfl
@[simp] theorem alterRow_answer : (alterRow row s).answer = s.answer := rfl

end alterRowFields

section resetRegistersFields

@[simp] theorem resetRegisters_cfg : (resetRegisters s).cfg = s.cfg := rfl
@[simp] theorem resetRegisters_row : (resetRegisters s).row = s.row := rfl
@[simp] theorem resetRegisters_hostRow : (resetRegisters s).hostRow = s.hostRow := rfl
@[simp] theorem resetRegisters_inputs : (resetRegisters s).inputs = s.inputs := rfl
@[simp] theorem resetRegisters_stage : (resetRegisters s).stage = .idle := rfl
@[simp] theorem resetRegisters_i : (resetRegisters s).i = 0 := rfl
@[simp] theorem resetRegisters_p : (resetRegisters s).p = 0 := rfl
@[simp] theorem resetRegisters_found : (resetRegisters s).found = false := rfl
@[simp] theorem resetRegisters_syncEnd : (resetRegisters s).syncEnd = 0 := rfl
@[simp] theorem resetRegisters_pos : (resetRegisters s).pos = 0 := rfl
@[simp] theorem resetRegisters_nbits : (resetRegisters s).nbits = 0 := rfl
@[simp] theorem resetRegisters_buf : (resetRegisters s).buf = [] := rfl
@[simp] theorem resetRegisters_stopCause : (resetRegisters s).stopCause = none := rfl
@[simp] theorem resetRegisters_recordValid : (resetRegisters s).recordValid = false := rfl
@[simp] theorem resetRegisters_dropReason : (resetRegisters s).dropReason = none := rfl
@[simp] theorem resetRegisters_power0 : (resetRegisters s).power0 = 0#16 := rfl
@[simp] theorem resetRegisters_power1 : (resetRegisters s).power1 = 0#16 := rfl
@[simp] theorem resetRegisters_power2 : (resetRegisters s).power2 = 0#16 := rfl
@[simp] theorem resetRegisters_time : (resetRegisters s).time = none := rfl
@[simp] theorem resetRegisters_clockReads : (resetRegisters s).clockReads = s.clockReads := rfl
@[simp] theorem resetRegisters_answer : (resetRegisters s).answer = none := rfl

end resetRegistersFields

section startValuesFields

@[simp] theorem startValues_cfg : (startValues s).cfg = s.cfg := rfl
@[simp] theorem startValues_row : (startValues s).row = s.row := rfl
@[simp] theorem startValues_hostRow : (startValues s).hostRow = s.hostRow := rfl
@[simp] theorem startValues_inputs : (startValues s).inputs = s.inputs := rfl
@[simp] theorem startValues_stage : (startValues s).stage = .seeking := rfl
@[simp] theorem startValues_i : (startValues s).i = 0 := rfl
@[simp] theorem startValues_p : (startValues s).p = 0 := rfl
@[simp] theorem startValues_found : (startValues s).found = false := rfl
@[simp] theorem startValues_syncEnd : (startValues s).syncEnd = 0 := rfl
@[simp] theorem startValues_pos : (startValues s).pos = 0 := rfl
@[simp] theorem startValues_nbits : (startValues s).nbits = 0 := rfl
@[simp] theorem startValues_buf : (startValues s).buf = [] := rfl
@[simp] theorem startValues_stopCause : (startValues s).stopCause = none := rfl
@[simp] theorem startValues_recordValid : (startValues s).recordValid = false := rfl
@[simp] theorem startValues_dropReason : (startValues s).dropReason = none := rfl
@[simp] theorem startValues_power0 : (startValues s).power0 = 0#16 := rfl
@[simp] theorem startValues_power1 : (startValues s).power1 = 0#16 := rfl
@[simp] theorem startValues_power2 : (startValues s).power2 = 0#16 := rfl
@[simp] theorem startValues_time : (startValues s).time = none := rfl
@[simp] theorem startValues_clockReads : (startValues s).clockReads = s.clockReads := rfl
@[simp] theorem startValues_answer : (startValues s).answer = s.answer := rfl

end startValuesFields

section startInvocationFields

variable (row : Row)

@[simp] theorem startInvocation_cfg : (startInvocation row s).cfg = s.cfg := rfl
@[simp] theorem startInvocation_row : (startInvocation row s).row = row := rfl
@[simp] theorem startInvocation_hostRow : (startInvocation row s).hostRow = row := rfl
@[simp] theorem startInvocation_inputs : (startInvocation row s).inputs = s.inputs := rfl
@[simp] theorem startInvocation_stage : (startInvocation row s).stage = .seeking := rfl
@[simp] theorem startInvocation_i : (startInvocation row s).i = 0 := rfl
@[simp] theorem startInvocation_p : (startInvocation row s).p = 0 := rfl
@[simp] theorem startInvocation_found : (startInvocation row s).found = false := rfl
@[simp] theorem startInvocation_syncEnd : (startInvocation row s).syncEnd = 0 := rfl
@[simp] theorem startInvocation_pos : (startInvocation row s).pos = 0 := rfl
@[simp] theorem startInvocation_nbits : (startInvocation row s).nbits = 0 := rfl
@[simp] theorem startInvocation_buf : (startInvocation row s).buf = [] := rfl
@[simp] theorem startInvocation_stopCause : (startInvocation row s).stopCause = none := rfl
@[simp] theorem startInvocation_recordValid : (startInvocation row s).recordValid = false := rfl
@[simp] theorem startInvocation_dropReason : (startInvocation row s).dropReason = none := rfl
@[simp] theorem startInvocation_power0 : (startInvocation row s).power0 = 0#16 := rfl
@[simp] theorem startInvocation_power1 : (startInvocation row s).power1 = 0#16 := rfl
@[simp] theorem startInvocation_power2 : (startInvocation row s).power2 = 0#16 := rfl
@[simp] theorem startInvocation_time : (startInvocation row s).time = none := rfl
@[simp] theorem startInvocation_clockReads : (startInvocation row s).clockReads = s.clockReads := rfl
@[simp] theorem startInvocation_answer : (startInvocation row s).answer = s.answer := rfl

end startInvocationFields

section loadBytesFields

variable (bytes : List Byte) (count : Nat)

@[simp] theorem loadBytes_cfg : (loadBytes bytes count s).cfg = s.cfg := rfl
@[simp] theorem loadBytes_row : (loadBytes bytes count s).row = s.row := rfl
@[simp] theorem loadBytes_hostRow : (loadBytes bytes count s).hostRow = s.hostRow := rfl
@[simp] theorem loadBytes_inputs : (loadBytes bytes count s).inputs = s.inputs := rfl
@[simp] theorem loadBytes_stage : (loadBytes bytes count s).stage = .validating := rfl
@[simp] theorem loadBytes_i : (loadBytes bytes count s).i = 0 := rfl
@[simp] theorem loadBytes_p : (loadBytes bytes count s).p = 0 := rfl
@[simp] theorem loadBytes_found : (loadBytes bytes count s).found = false := rfl
@[simp] theorem loadBytes_syncEnd : (loadBytes bytes count s).syncEnd = 0 := rfl
@[simp] theorem loadBytes_pos : (loadBytes bytes count s).pos = 0 := rfl
@[simp] theorem loadBytes_nbits : (loadBytes bytes count s).nbits = 8 * count := rfl
@[simp] theorem loadBytes_buf : (loadBytes bytes count s).buf = Memory.ofBytes bytes := rfl
@[simp] theorem loadBytes_stopCause : (loadBytes bytes count s).stopCause = none := rfl
@[simp] theorem loadBytes_recordValid : (loadBytes bytes count s).recordValid = false := rfl
@[simp] theorem loadBytes_dropReason : (loadBytes bytes count s).dropReason = none := rfl
@[simp] theorem loadBytes_power0 : (loadBytes bytes count s).power0 = 0#16 := rfl
@[simp] theorem loadBytes_power1 : (loadBytes bytes count s).power1 = 0#16 := rfl
@[simp] theorem loadBytes_power2 : (loadBytes bytes count s).power2 = 0#16 := rfl
@[simp] theorem loadBytes_time : (loadBytes bytes count s).time = none := rfl
@[simp] theorem loadBytes_clockReads : (loadBytes bytes count s).clockReads = s.clockReads := rfl
@[simp] theorem loadBytes_answer : (loadBytes bytes count s).answer = s.answer := rfl

end loadBytesFields

section enterDecodingFields

variable (offset : Nat)

@[simp] theorem enterDecoding_cfg : (enterDecoding offset s).cfg = s.cfg := rfl
@[simp] theorem enterDecoding_row : (enterDecoding offset s).row = s.row := rfl
@[simp] theorem enterDecoding_hostRow : (enterDecoding offset s).hostRow = s.hostRow := rfl
@[simp] theorem enterDecoding_inputs : (enterDecoding offset s).inputs = s.inputs := rfl
@[simp] theorem enterDecoding_stage : (enterDecoding offset s).stage = .decoding := rfl
@[simp] theorem enterDecoding_i : (enterDecoding offset s).i = s.i := rfl
@[simp] theorem enterDecoding_p : (enterDecoding offset s).p = s.p := rfl
@[simp] theorem enterDecoding_found : (enterDecoding offset s).found = true := rfl
@[simp] theorem enterDecoding_syncEnd : (enterDecoding offset s).syncEnd = offset := rfl
@[simp] theorem enterDecoding_pos : (enterDecoding offset s).pos = offset := rfl
@[simp] theorem enterDecoding_nbits : (enterDecoding offset s).nbits = 0 := rfl
@[simp] theorem enterDecoding_buf : (enterDecoding offset s).buf = [] := rfl
@[simp] theorem enterDecoding_stopCause : (enterDecoding offset s).stopCause = none := rfl
@[simp] theorem enterDecoding_recordValid : (enterDecoding offset s).recordValid = s.recordValid := rfl
@[simp] theorem enterDecoding_dropReason : (enterDecoding offset s).dropReason = s.dropReason := rfl
@[simp] theorem enterDecoding_power0 : (enterDecoding offset s).power0 = s.power0 := rfl
@[simp] theorem enterDecoding_power1 : (enterDecoding offset s).power1 = s.power1 := rfl
@[simp] theorem enterDecoding_power2 : (enterDecoding offset s).power2 = s.power2 := rfl
@[simp] theorem enterDecoding_time : (enterDecoding offset s).time = s.time := rfl
@[simp] theorem enterDecoding_clockReads : (enterDecoding offset s).clockReads = s.clockReads := rfl
@[simp] theorem enterDecoding_answer : (enterDecoding offset s).answer = s.answer := rfl

end enterDecodingFields

section dropNoSyncFields

@[simp] theorem dropNoSync_cfg : (dropNoSync s).cfg = s.cfg := rfl
@[simp] theorem dropNoSync_row : (dropNoSync s).row = s.row := rfl
@[simp] theorem dropNoSync_hostRow : (dropNoSync s).hostRow = s.hostRow := rfl
@[simp] theorem dropNoSync_inputs : (dropNoSync s).inputs = s.inputs := rfl
@[simp] theorem dropNoSync_stage : (dropNoSync s).stage = .drop := rfl
@[simp] theorem dropNoSync_i : (dropNoSync s).i = s.i := rfl
@[simp] theorem dropNoSync_p : (dropNoSync s).p = s.p := rfl
@[simp] theorem dropNoSync_found : (dropNoSync s).found = false := rfl
@[simp] theorem dropNoSync_syncEnd : (dropNoSync s).syncEnd = s.syncEnd := rfl
@[simp] theorem dropNoSync_pos : (dropNoSync s).pos = s.pos := rfl
@[simp] theorem dropNoSync_nbits : (dropNoSync s).nbits = s.nbits := rfl
@[simp] theorem dropNoSync_buf : (dropNoSync s).buf = s.buf := rfl
@[simp] theorem dropNoSync_stopCause : (dropNoSync s).stopCause = s.stopCause := rfl
@[simp] theorem dropNoSync_recordValid : (dropNoSync s).recordValid = s.recordValid := rfl
@[simp] theorem dropNoSync_dropReason : (dropNoSync s).dropReason = some .noSync := rfl
@[simp] theorem dropNoSync_power0 : (dropNoSync s).power0 = s.power0 := rfl
@[simp] theorem dropNoSync_power1 : (dropNoSync s).power1 = s.power1 := rfl
@[simp] theorem dropNoSync_power2 : (dropNoSync s).power2 = s.power2 := rfl
@[simp] theorem dropNoSync_time : (dropNoSync s).time = s.time := rfl
@[simp] theorem dropNoSync_clockReads : (dropNoSync s).clockReads = s.clockReads := rfl
@[simp] theorem dropNoSync_answer : (dropNoSync s).answer = s.answer := rfl

end dropNoSyncFields

section setCursorsFields

variable (c : Nat × Nat)

@[simp] theorem setCursors_cfg : (setCursors c s).cfg = s.cfg := rfl
@[simp] theorem setCursors_row : (setCursors c s).row = s.row := rfl
@[simp] theorem setCursors_hostRow : (setCursors c s).hostRow = s.hostRow := rfl
@[simp] theorem setCursors_inputs : (setCursors c s).inputs = s.inputs := rfl
@[simp] theorem setCursors_stage : (setCursors c s).stage = s.stage := rfl
@[simp] theorem setCursors_i : (setCursors c s).i = c.1 := rfl
@[simp] theorem setCursors_p : (setCursors c s).p = c.2 := rfl
@[simp] theorem setCursors_found : (setCursors c s).found = s.found := rfl
@[simp] theorem setCursors_syncEnd : (setCursors c s).syncEnd = s.syncEnd := rfl
@[simp] theorem setCursors_pos : (setCursors c s).pos = s.pos := rfl
@[simp] theorem setCursors_nbits : (setCursors c s).nbits = s.nbits := rfl
@[simp] theorem setCursors_buf : (setCursors c s).buf = s.buf := rfl
@[simp] theorem setCursors_stopCause : (setCursors c s).stopCause = s.stopCause := rfl
@[simp] theorem setCursors_recordValid : (setCursors c s).recordValid = s.recordValid := rfl
@[simp] theorem setCursors_dropReason : (setCursors c s).dropReason = s.dropReason := rfl
@[simp] theorem setCursors_power0 : (setCursors c s).power0 = s.power0 := rfl
@[simp] theorem setCursors_power1 : (setCursors c s).power1 = s.power1 := rfl
@[simp] theorem setCursors_power2 : (setCursors c s).power2 = s.power2 := rfl
@[simp] theorem setCursors_time : (setCursors c s).time = s.time := rfl
@[simp] theorem setCursors_clockReads : (setCursors c s).clockReads = s.clockReads := rfl
@[simp] theorem setCursors_answer : (setCursors c s).answer = s.answer := rfl

end setCursorsFields

section stopDecodingFields

variable (cause : StopCause)

@[simp] theorem stopDecoding_cfg : (stopDecoding cause s).cfg = s.cfg := rfl
@[simp] theorem stopDecoding_row : (stopDecoding cause s).row = s.row := rfl
@[simp] theorem stopDecoding_hostRow : (stopDecoding cause s).hostRow = s.hostRow := rfl
@[simp] theorem stopDecoding_inputs : (stopDecoding cause s).inputs = s.inputs := rfl
@[simp] theorem stopDecoding_stage : (stopDecoding cause s).stage = .validating := rfl
@[simp] theorem stopDecoding_i : (stopDecoding cause s).i = s.i := rfl
@[simp] theorem stopDecoding_p : (stopDecoding cause s).p = s.p := rfl
@[simp] theorem stopDecoding_found : (stopDecoding cause s).found = s.found := rfl
@[simp] theorem stopDecoding_syncEnd : (stopDecoding cause s).syncEnd = s.syncEnd := rfl
@[simp] theorem stopDecoding_pos : (stopDecoding cause s).pos = s.pos := rfl
@[simp] theorem stopDecoding_nbits : (stopDecoding cause s).nbits = s.nbits := rfl
@[simp] theorem stopDecoding_buf : (stopDecoding cause s).buf = s.buf := rfl
@[simp] theorem stopDecoding_stopCause : (stopDecoding cause s).stopCause = some cause := rfl
@[simp] theorem stopDecoding_recordValid : (stopDecoding cause s).recordValid = s.recordValid := rfl
@[simp] theorem stopDecoding_dropReason : (stopDecoding cause s).dropReason = s.dropReason := rfl
@[simp] theorem stopDecoding_power0 : (stopDecoding cause s).power0 = s.power0 := rfl
@[simp] theorem stopDecoding_power1 : (stopDecoding cause s).power1 = s.power1 := rfl
@[simp] theorem stopDecoding_power2 : (stopDecoding cause s).power2 = s.power2 := rfl
@[simp] theorem stopDecoding_time : (stopDecoding cause s).time = s.time := rfl
@[simp] theorem stopDecoding_clockReads : (stopDecoding cause s).clockReads = s.clockReads := rfl
@[simp] theorem stopDecoding_answer : (stopDecoding cause s).answer = s.answer := rfl

end stopDecodingFields

section appendBitFields

variable (d : Bool)

@[simp] theorem appendBit_cfg : (appendBit d s).cfg = s.cfg := rfl
@[simp] theorem appendBit_row : (appendBit d s).row = s.row := rfl
@[simp] theorem appendBit_hostRow : (appendBit d s).hostRow = s.hostRow := rfl
@[simp] theorem appendBit_inputs : (appendBit d s).inputs = s.inputs := rfl
@[simp] theorem appendBit_stage : (appendBit d s).stage = s.stage := rfl
@[simp] theorem appendBit_i : (appendBit d s).i = s.i := rfl
@[simp] theorem appendBit_p : (appendBit d s).p = s.p := rfl
@[simp] theorem appendBit_found : (appendBit d s).found = s.found := rfl
@[simp] theorem appendBit_syncEnd : (appendBit d s).syncEnd = s.syncEnd := rfl
@[simp] theorem appendBit_pos : (appendBit d s).pos = s.pos + 2 := rfl
@[simp] theorem appendBit_nbits : (appendBit d s).nbits = s.nbits + 1 := rfl
@[simp] theorem appendBit_buf : (appendBit d s).buf = Memory.setBit s.buf s.nbits d := rfl
@[simp] theorem appendBit_stopCause : (appendBit d s).stopCause = s.stopCause := rfl
@[simp] theorem appendBit_recordValid : (appendBit d s).recordValid = s.recordValid := rfl
@[simp] theorem appendBit_dropReason : (appendBit d s).dropReason = s.dropReason := rfl
@[simp] theorem appendBit_power0 : (appendBit d s).power0 = s.power0 := rfl
@[simp] theorem appendBit_power1 : (appendBit d s).power1 = s.power1 := rfl
@[simp] theorem appendBit_power2 : (appendBit d s).power2 = s.power2 := rfl
@[simp] theorem appendBit_time : (appendBit d s).time = s.time := rfl
@[simp] theorem appendBit_clockReads : (appendBit d s).clockReads = s.clockReads := rfl
@[simp] theorem appendBit_answer : (appendBit d s).answer = s.answer := rfl

end appendBitFields

section storeDecodeFields

variable (d : LineDecode)

@[simp] theorem storeDecode_cfg : (storeDecode d s).cfg = s.cfg := rfl
@[simp] theorem storeDecode_row : (storeDecode d s).row = s.row := rfl
@[simp] theorem storeDecode_hostRow : (storeDecode d s).hostRow = s.hostRow := rfl
@[simp] theorem storeDecode_inputs : (storeDecode d s).inputs = s.inputs := rfl
@[simp] theorem storeDecode_stage : (storeDecode d s).stage = .validating := rfl
@[simp] theorem storeDecode_i : (storeDecode d s).i = s.i := rfl
@[simp] theorem storeDecode_p : (storeDecode d s).p = s.p := rfl
@[simp] theorem storeDecode_found : (storeDecode d s).found = s.found := rfl
@[simp] theorem storeDecode_syncEnd : (storeDecode d s).syncEnd = s.syncEnd := rfl
@[simp] theorem storeDecode_pos : (storeDecode d s).pos = d.pos := rfl
@[simp] theorem storeDecode_nbits : (storeDecode d s).nbits = d.nbits := rfl
@[simp] theorem storeDecode_buf : (storeDecode d s).buf = d.buf := rfl
@[simp] theorem storeDecode_stopCause : (storeDecode d s).stopCause = some d.cause := rfl
@[simp] theorem storeDecode_recordValid : (storeDecode d s).recordValid = s.recordValid := rfl
@[simp] theorem storeDecode_dropReason : (storeDecode d s).dropReason = s.dropReason := rfl
@[simp] theorem storeDecode_power0 : (storeDecode d s).power0 = s.power0 := rfl
@[simp] theorem storeDecode_power1 : (storeDecode d s).power1 = s.power1 := rfl
@[simp] theorem storeDecode_power2 : (storeDecode d s).power2 = s.power2 := rfl
@[simp] theorem storeDecode_time : (storeDecode d s).time = s.time := rfl
@[simp] theorem storeDecode_clockReads : (storeDecode d s).clockReads = s.clockReads := rfl
@[simp] theorem storeDecode_answer : (storeDecode d s).answer = s.answer := rfl

end storeDecodeFields

section popInputFields

@[simp] theorem popInput_cfg : (popInput s).cfg = s.cfg := rfl
@[simp] theorem popInput_row : (popInput s).row = s.row := rfl
@[simp] theorem popInput_hostRow : (popInput s).hostRow = s.hostRow := rfl
@[simp] theorem popInput_inputs : (popInput s).inputs = s.inputs.tail := rfl
@[simp] theorem popInput_stage : (popInput s).stage = s.stage := rfl
@[simp] theorem popInput_i : (popInput s).i = s.i := rfl
@[simp] theorem popInput_p : (popInput s).p = s.p := rfl
@[simp] theorem popInput_found : (popInput s).found = s.found := rfl
@[simp] theorem popInput_syncEnd : (popInput s).syncEnd = s.syncEnd := rfl
@[simp] theorem popInput_pos : (popInput s).pos = s.pos := rfl
@[simp] theorem popInput_nbits : (popInput s).nbits = s.nbits := rfl
@[simp] theorem popInput_buf : (popInput s).buf = s.buf := rfl
@[simp] theorem popInput_stopCause : (popInput s).stopCause = s.stopCause := rfl
@[simp] theorem popInput_recordValid : (popInput s).recordValid = s.recordValid := rfl
@[simp] theorem popInput_dropReason : (popInput s).dropReason = s.dropReason := rfl
@[simp] theorem popInput_power0 : (popInput s).power0 = s.power0 := rfl
@[simp] theorem popInput_power1 : (popInput s).power1 = s.power1 := rfl
@[simp] theorem popInput_power2 : (popInput s).power2 = s.power2 := rfl
@[simp] theorem popInput_time : (popInput s).time = s.time := rfl
@[simp] theorem popInput_clockReads : (popInput s).clockReads = s.clockReads := rfl
@[simp] theorem popInput_answer : (popInput s).answer = s.answer := rfl

end popInputFields

/-! The views of the state, read from the fields above. -/

@[simp] theorem popInput_atCapacity : (popInput s).atCapacity = s.atCapacity := rfl
@[simp] theorem popInput_exhausted : (popInput s).exhausted = s.exhausted := rfl
@[simp] theorem popInput_started : (popInput s).started = s.started := rfl
@[simp] theorem popInput_busy : (popInput s).busy = s.busy := rfl
@[simp] theorem returnAnswer_started (a : Answer) : (returnAnswer a s).started = s.started := rfl
@[simp] theorem popInput_rowLent : (popInput s).rowLent = s.rowLent := rfl
@[simp] theorem alterRow_rowLent (row : Row) : (alterRow row s).rowLent = s.rowLent := rfl
@[simp] theorem alterRow_started (row : Row) : (alterRow row s).started = s.started := rfl
@[simp] theorem alterRow_busy (row : Row) : (alterRow row s).busy = s.busy := rfl
@[simp] theorem returnAnswer_busy (a : Answer) : (returnAnswer a s).busy = s.busy := rfl

/-- The block is busy in exactly the three working stages. -/
theorem busy_iff : s.busy = true ↔ s.stage = .seeking ∨ s.stage = .decoding ∨ s.stage = .validating := by
  unfold State.busy
  cases s.stage <;> simp

/-- A row is lent in the two stages that read it, and until the verdict where the search found something. -/
theorem rowLent_iff : s.rowLent = true ↔
    s.stage = .seeking ∨ s.stage = .decoding ∨ (s.stage = .validating ∧ s.found = true) := by
  unfold State.rowLent
  cases s.stage <;> simp

theorem not_busy_iff : s.busy = false ↔ s.stage = .idle ∨ s.stage = .emit ∨ s.stage = .drop := by
  unfold State.busy
  cases s.stage <;> simp

theorem done_iff : s.done = true ↔ s.stage = .emit ∨ s.stage = .drop := by
  unfold State.done
  cases s.stage <;> simp

end Sys2Proof.Machine
end

