-- ==== Sys2Proof/Laws/Ops.lean ====
section
/-! SUPPORT. What each shared operation can do, said once: the guard, the pair and frame gates, the three whole
stages, the acceptance of a request, and one step in each stage. Later proofs cite these and unfold nothing. -/

namespace Sys2Proof.Machine

variable {s t : State}

/-! The guard every meaning stands behind. -/

@[simp] theorem guarded_of_legal (h : s.cfg.legal = true) (r : StepResult) : s.guarded r = r := if_pos h

@[simp] theorem guarded_of_illegal (h : s.cfg.legal = false) (r : StepResult) :
    s.guarded r = .refused .illegalConfiguration := if_neg (by simp [h])

theorem guarded_eq_next {r : StepResult} (h : s.guarded r = .next t) : s.cfg.legal = true ∧ r = .next t := by
  unfold State.guarded at h
  split at h
  · exact ⟨‹_›, h⟩
  · cases h

/-! What a legal configuration gives. -/

theorem legal_iff (c : Config) :
    c.legal = true ↔ 1 ≤ c.syncLen ∧ c.syncPattern.length = c.syncLen ∧ c.nFields ≤ 3 ∧
      c.fieldBase + 2 * c.nFields ≤ c.cap ∧ 1 ≤ c.minBytes ∧ c.minBytes ≤ c.cap ∧ c.indexWidthOk = true := by
  simp [Config.legal, and_assoc]

/-- In range, `PatRead` is the pattern's bit (20_memory.md R34). -/
theorem patRead_of_legal {c : Config} (h : c.legal = true) {k : Nat} (hk : k < c.syncLen) :
    c.patRead k = some (patternBit c.syncPattern k) := by
  have hl := ((legal_iff c).mp h).2.1
  have hk' : k < c.syncPattern.length := by omega
  simp [Config.patRead, hk, patternBit, hk']

/-! The gates of the pairs and the frames. -/

theorem withRoom_cases {k : State → State} (h : withRoom s k = .next t) :
    s.cfg.legal = true ∧
      ((s.atCapacity = true ∧ t = stopDecoding .cap s) ∨ (s.atCapacity = false ∧ t = k s)) := by
  obtain ⟨hl, h⟩ := guarded_eq_next h
  refine ⟨hl, ?_⟩
  cases hc : s.atCapacity <;> simp [hc] at h <;> simp [h]

theorem withLength_cases {k : State → State} (h : withLength s k = .next t) :
    s.cfg.legal = true ∧
      ((s.started < s.cfg.minBytes ∧ t = raiseDrop .truncated s) ∨
        (s.cfg.minBytes ≤ s.started ∧ t = k s)) := by
  obtain ⟨hl, h⟩ := guarded_eq_next h
  refine ⟨hl, ?_⟩
  by_cases hc : s.started < s.cfg.minBytes
  · left; simpa [hc, eq_comm] using h
  · right; exact ⟨by omega, by simpa [hc, eq_comm] using h⟩

/-! The whole stages. -/

/-- A search ends in `DECODING` with the offset found, or in a `NO_SYNC` drop. -/
theorem runSeek_cases (s : State) :
    let c := seekCursors s.row s.cfg.syncPattern s.cfg.syncLen
    (c.2 = s.cfg.syncLen ∧ runSeek s = enterDecoding c.1 (setCursors c s)) ∨
      (c.2 ≠ s.cfg.syncLen ∧ runSeek s = dropNoSync (setCursors c s)) := by
  intro c
  unfold runSeek
  by_cases h : c.2 = s.cfg.syncLen
  · left; exact ⟨h, if_pos h⟩
  · right; exact ⟨h, if_neg h⟩

/-- Validation ends in one of the three ways of R115. -/
theorem runValidate_cases (s : State) :
    (s.started < s.cfg.minBytes ∧ runValidate s = raiseDrop .truncated s) ∨
    (s.cfg.minBytes ≤ s.started ∧ Memory.read s.buf 0 ≠ s.cfg.typeMarker ∧
      runValidate s = raiseDrop .typeMismatch s) ∨
    (s.cfg.minBytes ≤ s.started ∧ Memory.read s.buf 0 = s.cfg.typeMarker ∧
      runValidate s = emitPowers (Memory.read s.buf) s) := by
  unfold runValidate validateFrame
  by_cases h : s.started < s.cfg.minBytes
  · left; exact ⟨h, by rw [if_pos h]; rfl⟩
  · by_cases h0 : Memory.read s.buf 0 = s.cfg.typeMarker
    · right; right; exact ⟨by omega, h0, by rw [if_neg h, if_neg (not_not.mpr h0)]; rfl⟩
    · right; left; exact ⟨by omega, h0, by rw [if_neg h, if_pos h0]; rfl⟩

theorem runStages_cases (s : State) :
    ((runSeek s).stage = .decoding ∧ runStages s = runValidate (runDecode (runSeek s))) ∨
    ((runSeek s).stage = .drop ∧ runStages s = runSeek s) := by
  unfold runStages
  obtain ⟨-, h⟩ | ⟨-, h⟩ := runSeek_cases s <;> rw [h] <;> simp

/-! A request of the host. -/

theorem acceptStart_cases {row : Row} (h : acceptStart row s = .next t) :
    (s.busy = true ∧ t = s) ∨
      (s.busy = false ∧ s.cfg.admitsLen row.len = true ∧ t = startInvocation row s) := by
  unfold acceptStart at h
  split at h
  · left; exact ⟨‹_›, by cases h; rfl⟩
  · split at h
    · right; exact ⟨by simpa using ‹¬ s.busy = true›, ‹_›, by cases h; rfl⟩
    · cases h

theorem acceptBytes_cases {bytes : List Byte} {count : Nat} (h : acceptBytes bytes count s = .next t) :
    (s.busy = true ∧ t = s) ∨
      (s.busy = false ∧ (bytes.length = s.cfg.cap ∧ count ≤ s.cfg.cap) ∧ t = loadBytes bytes count s) := by
  unfold acceptBytes at h
  split at h
  · left; exact ⟨‹_›, by cases h; rfl⟩
  · split at h
    · right; exact ⟨by simpa using ‹¬ s.busy = true›, ‹_›, by cases h; rfl⟩
    · cases h

/-! One step of each working stage. -/

/-- A `SEEKING` step: found, not found, or the two cursors moved after one comparison in range. -/
theorem seekingStep_cases (h : seekingStep s = .next t) :
    (s.p = s.cfg.syncLen ∧ t = enterDecoding s.i s) ∨
    (s.p ≠ s.cfg.syncLen ∧ s.row.len ≤ s.i ∧ t = dropNoSync s) ∨
    (s.p ≠ s.cfg.syncLen ∧ s.i < s.row.len ∧ ∃ q, s.cfg.patRead s.p = some q ∧
      t = setCursors (seekAdvance (s.row.bit s.i == q) s.i s.p) s) := by
  unfold seekingStep at h
  by_cases hp : s.p = s.cfg.syncLen
  · left; rw [if_pos hp] at h; exact ⟨hp, by cases h; rfl⟩
  rw [if_neg hp] at h
  by_cases hi : s.row.len ≤ s.i
  · right; left; rw [if_pos hi] at h; exact ⟨hp, hi, by cases h; rfl⟩
  rw [if_neg hi, Row.bitAt_eq_some (by omega)] at h
  right; right
  cases hq : s.cfg.patRead s.p with
  | none => rw [hq] at h; cases h
  | some q => rw [hq] at h; exact ⟨hp, by omega, q, rfl, by cases h; rfl⟩

/-- The pair at `pos`, when the row holds it whole. -/
theorem fetchPair_of_room (h : s.pos + 1 < s.row.len) :
    fetchPair s = some (decodePair (s.row.bit s.pos) (s.row.bit (s.pos + 1))) := by
  simp [fetchPair, Row.bitAt, h, show s.pos < s.row.len by omega]

/-- What a pair does, by its two bits: valid exactly when they differ, and then the second one is decoded (R52). -/
theorem exec_decodePair (s1 s0 : Bool) (s : State) :
    exec (decodePair s1 s0) s = withRoom s (if s1 = s0 then stopDecoding .inv else appendBit s0) := by
  cases s1 <;> cases s0 <;> rfl

/-- A `DECODING` step: one of the three stops, or one bit appended. -/
theorem decodingStep_cases (h : decodingStep s = .next t) :
    (s.atCapacity = true ∧ t = stopDecoding .cap s) ∨
    (s.atCapacity = false ∧ s.row.len ≤ s.pos + 1 ∧ t = stopDecoding .exhausted s) ∨
    (s.atCapacity = false ∧ s.pos + 1 < s.row.len ∧ s.cfg.legal = true ∧
      s.row.bit s.pos = s.row.bit (s.pos + 1) ∧ t = stopDecoding .inv s) ∨
    (s.atCapacity = false ∧ s.pos + 1 < s.row.len ∧ s.cfg.legal = true ∧
      s.row.bit s.pos ≠ s.row.bit (s.pos + 1) ∧ t = appendBit (s.row.bit (s.pos + 1)) s) := by
  unfold decodingStep at h
  cases hc : s.atCapacity with
  | true => left; rw [hc] at h; exact ⟨rfl, by cases h; rfl⟩
  | false =>
    right
    by_cases he : s.row.len ≤ s.pos + 1
    · left
      refine ⟨rfl, he, ?_⟩
      simpa [hc, State.exhausted, he, eq_comm] using h
    · right
      have hlt : s.pos + 1 < s.row.len := by omega
      simp only [hc, Bool.false_eq_true, if_false, State.exhausted, decide_eq_true_eq, he,
        fetchPair_of_room hlt, exec_decodePair] at h
      obtain ⟨hl, ⟨hc', -⟩ | ⟨-, rfl⟩⟩ := withRoom_cases h
      · rw [hc] at hc'; cases hc'
      · by_cases hb : s.row.bit s.pos = s.row.bit (s.pos + 1)
        · left; exact ⟨rfl, hlt, hl, hb, by rw [if_pos hb]⟩
        · right; exact ⟨rfl, hlt, hl, hb, by rw [if_neg hb]⟩

theorem append_byte_getLsbD {n : Nat} (x : BitVec n) (b : Byte) (j : Nat) :
    (x ++ b).getLsbD j = if j < 8 then b.getLsbD j else x.getLsbD (j - 8) := BitVec.getLsbD_append

/-- Bit `j` of the frame is a bit of byte `7 - j / 8`, counting the bytes off from the last (30_encoding.md R55). -/
theorem frameOfBytes_getLsbD (b0 b1 b2 b3 b4 b5 b6 b7 : Byte) (j : Nat) :
    (frameOfBytes b0 b1 b2 b3 b4 b5 b6 b7).getLsbD j =
      if j < 8 then b7.getLsbD j else if j - 8 < 8 then b6.getLsbD (j - 8)
      else if j - 8 - 8 < 8 then b5.getLsbD (j - 8 - 8) else if j - 8 - 8 - 8 < 8 then b4.getLsbD (j - 8 - 8 - 8)
      else if j - 8 - 8 - 8 - 8 < 8 then b3.getLsbD (j - 8 - 8 - 8 - 8)
      else if j - 8 - 8 - 8 - 8 - 8 < 8 then b2.getLsbD (j - 8 - 8 - 8 - 8 - 8)
      else if j - 8 - 8 - 8 - 8 - 8 - 8 < 8 then b1.getLsbD (j - 8 - 8 - 8 - 8 - 8 - 8)
      else b0.getLsbD (j - 8 - 8 - 8 - 8 - 8 - 8 - 8) := by
  rw [← append_byte_getLsbD b0 b1, ← append_byte_getLsbD _ b2, ← append_byte_getLsbD _ b3, ← append_byte_getLsbD _ b4, ← append_byte_getLsbD _ b5, ← append_byte_getLsbD _ b6, ← append_byte_getLsbD _ b7]
  rfl

/-- A power frame fetched from the buffer shows the buffer's bytes. -/
theorem slotView_frameWord (buf : Memory) :
    slotView ((frameWord buf).extractLsb' 32 15) ((frameWord buf).extractLsb' 16 15)
      ((frameWord buf).extractLsb' 0 15) buf = Memory.read buf := by
  funext k
  unfold slotView
  split <;> first
    | rfl
    | (apply BitVec.eq_of_getLsbD_eq
       intro i hi
       interval_cases i <;> simp [frameWord, frameOfBytes_getLsbD, -BitVec.getLsbD_eq_getElem])

@[simp] theorem emitPowers_eq (byteAt : Nat → Byte) (s : State) : emitPowers byteAt s =
    emitRecord (powerOf s.cfg byteAt 0) (powerOf s.cfg byteAt 1) (powerOf s.cfg byteAt 2) s := rfl

/-- A power never exceeds what the mask lets through (10_state.md R24 (h)). -/
theorem powerOf_toNat_le (c : Config) (byteAt : Nat → Byte) (k : Nat) : (powerOf c byteAt k).toNat ≤ c.powerMax := by
  unfold powerOf powerField Config.powerMax
  split
  · generalize byteAt (c.fieldBase + 2 * k) = hi
    generalize byteAt (c.fieldBase + 2 * k + 1) = lo
    have h1 : (hi &&& c.highMask).toNat ≤ c.highMask.toNat := by
      rw [BitVec.toNat_and]; exact Nat.and_le_right
    have h2 := (hi &&& c.highMask).isLt
    have h3 := lo.isLt
    have h4 : ((hi &&& c.highMask).setWidth 16).toNat = (hi &&& c.highMask).toNat := by
      rw [BitVec.toNat_setWidth]; omega
    have h5 : (lo.setWidth 16).toNat = lo.toNat := by
      rw [BitVec.toNat_setWidth]; omega
    rw [BitVec.toNat_or, BitVec.toNat_shiftLeft, h4, h5, Nat.mod_eq_of_lt (by rw [Nat.shiftLeft_eq]; omega),
      ← Nat.shiftLeft_add_eq_or_of_lt (by omega), Nat.shiftLeft_eq]
    omega
  · exact Nat.zero_le _

/-- A `VALIDATING` step: short, another frame type, or the three fields of the frame emitted. -/
theorem validatingStep_cases (h : validatingStep s = .next t) :
    (s.started < s.cfg.minBytes ∧ t = raiseDrop .truncated s) ∨
    (s.cfg.minBytes ≤ s.started ∧ s.cfg.legal = true ∧
      (frameWord s.buf).extractLsb' 56 8 ≠ s.cfg.typeMarker ∧ t = raiseDrop .typeMismatch s) ∨
    (s.cfg.minBytes ≤ s.started ∧ s.cfg.legal = true ∧
      (frameWord s.buf).extractLsb' 56 8 = s.cfg.typeMarker ∧
      t = emitPowers (Memory.read s.buf) s) := by
  unfold validatingStep at h
  by_cases hl : s.started < s.cfg.minBytes
  · left; rw [if_pos hl] at h; exact ⟨hl, by cases h; rfl⟩
  · right
    rw [if_neg hl] at h
    by_cases hm : (frameWord s.buf).extractLsb' 56 8 = s.cfg.typeMarker
    · right
      rw [fetchFrame, decodeFrame, if_pos hm] at h
      obtain ⟨hg, ⟨hs, -⟩ | ⟨-, rfl⟩⟩ := withLength_cases h
      · exact absurd hs hl
      · exact ⟨by omega, hg, hm, by rw [slotView_frameWord]⟩
    · left
      rw [fetchFrame, decodeFrame, if_neg hm] at h
      obtain ⟨hg, ⟨hs, -⟩ | ⟨-, rfl⟩⟩ := withLength_cases h
      · exact absurd hs hl
      · exact ⟨by omega, hg, hm, rfl⟩

/-! The sequencer. -/

theorem runningStep_cases {x : HostInput} {k : State → StepResult} (h : runningStep x s k = .next t) :
    (x = .reset ∧ t = resetRegisters s) ∨ (x ≠ .reset ∧ (∀ row, x ≠ .changeRow row) ∧ k s = .next t) ∨
    (∃ row, x = .changeRow row ∧ (s.rowLent = true → row.sameBits s.row = true) ∧ k (alterRow row s) = .next t) := by
  cases x with
  | quiet => right; left; exact ⟨nofun, nofun, h⟩
  | start row => right; left; exact ⟨nofun, nofun, h⟩
  | bypass bytes count => right; left; exact ⟨nofun, nofun, h⟩
  | call op => right; left; exact ⟨nofun, nofun, h⟩
  | changeRow row =>
    right; right
    refine ⟨row, rfl, ?_⟩
    simp only [runningStep] at h
    split at h
    · cases h
    · refine ⟨fun hl => ?_, h⟩
      have hn : ¬ (s.rowLent && !row.sameBits s.row) = true := ‹_›
      simpa [hl] using hn
  | reset => left; exact ⟨rfl, by cases h; rfl⟩

theorem waitingStep_cases {x : HostInput} (h : waitingStep x s = .next t) :
    t = s ∨ (x = .reset ∧ t = resetRegisters s) ∨ (∃ row, x = .start row ∧ acceptStart row s = .next t) ∨
    (∃ bytes count, x = .bypass bytes count ∧ acceptBytes bytes count s = .next t) ∨
    (∃ op, x = .call op ∧ isOperation op = true ∧ exec op s = .next t) ∨
    (∃ row, x = .changeRow row ∧ t = alterRow row s) := by
  cases x with
  | quiet => left; cases h; rfl
  | start row => right; right; left; exact ⟨row, rfl, h⟩
  | bypass bytes count => right; right; right; left; exact ⟨bytes, count, rfl, h⟩
  | call op =>
    cases ho : isOperation op with
    | true => right; right; right; right; left; exact ⟨op, rfl, ho, by simpa [waitingStep, ho] using h⟩
    | false => left; simpa [waitingStep, ho, eq_comm] using h
  | changeRow row => right; right; right; right; right; exact ⟨row, rfl, by cases h; rfl⟩
  | reset => right; left; exact ⟨rfl, by cases h; rfl⟩

/-- One step: the configuration is legal, the host's input is taken, and the step is that of the stage. -/
theorem step_cases (h : step s = .next t) :
    s.cfg.legal = true ∧
      ((s.busy = false ∧ waitingStep s.nextInput (popInput s) = .next t) ∨
       (s.stage = .seeking ∧ runningStep s.nextInput (popInput s) seekingStep = .next t) ∨
       (s.stage = .decoding ∧ runningStep s.nextInput (popInput s) decodingStep = .next t) ∨
       (s.stage = .validating ∧ runningStep s.nextInput (popInput s) validatingStep = .next t)) := by
  obtain ⟨hl, h⟩ := guarded_eq_next h
  refine ⟨hl, ?_⟩
  unfold sequencerStep at h
  have hs : (popInput s).stage = s.stage := rfl
  rw [hs] at h
  cases hst : s.stage <;> simp only [hst] at h <;> simp [State.busy, hst, h]

/-! The whole operations. -/

theorem execSeek_cases (h : execSeek s = .next t) :
    s.cfg.legal = true ∧
      ((s.stage = .seeking ∧ t = runSeek s) ∨ (s.stage ≠ .seeking ∧ s.busy = true ∧ t = s) ∨
       (s.busy = false ∧ t = returnAnswer (.offset (seek s.hostRow s.cfg.syncPattern s.cfg.syncLen)) s)) := by
  obtain ⟨hl, h⟩ := guarded_eq_next h
  refine ⟨hl, ?_⟩
  split at h
  · left; exact ⟨‹_›, by cases h; rfl⟩
  · split at h
    · right; left; exact ⟨‹_›, ‹_›, by cases h; rfl⟩
    · right; right; exact ⟨by simpa using ‹¬ s.busy = true›, by cases h; rfl⟩

theorem execDecode_cases (h : execDecode s = .next t) :
    s.cfg.legal = true ∧
      ((s.stage = .decoding ∧ s.found = true ∧ t = runDecode s) ∨
       (s.stage ≠ .decoding ∧ s.busy = true ∧ t = s) ∨
       (s.busy = false ∧ s.found = true ∧
        t = returnAnswer (.buffer (decodeLine s.hostRow s.syncEnd s.cfg.cap).buf
          (bytesStarted (decodeLine s.hostRow s.syncEnd s.cfg.cap).nbits)) s)) := by
  obtain ⟨hl, h⟩ := guarded_eq_next h
  refine ⟨hl, ?_⟩
  split at h
  · split at h
    · left; exact ⟨‹_›, ‹_›, by cases h; rfl⟩
    · cases h
  · split at h
    · right; left; exact ⟨‹_›, ‹_›, by cases h; rfl⟩
    · split at h
      · right; right; exact ⟨by simpa using ‹¬ s.busy = true›, ‹_›, by cases h; rfl⟩
      · cases h

theorem execValidateExtract_cases (h : execValidateExtract s = .next t) :
    s.cfg.legal = true ∧
      ((s.stage = .validating ∧ t = runValidate s) ∨ (s.stage ≠ .validating ∧ s.busy = true ∧ t = s) ∨
       (s.busy = false ∧ t = returnAnswer (.verdict (validateFrame s.cfg s.buf s.started)) s)) := by
  obtain ⟨hl, h⟩ := guarded_eq_next h
  refine ⟨hl, ?_⟩
  split at h
  · left; exact ⟨‹_›, by cases h; rfl⟩
  · split at h
    · right; left; exact ⟨‹_›, ‹_›, by cases h; rfl⟩
    · right; right; exact ⟨by simpa using ‹¬ s.busy = true›, by cases h; rfl⟩

theorem execDecodeRow_cases {row : Row} (h : execDecodeRow row s = .next t) :
    s.cfg.legal = true ∧
      ((s.busy = true ∧ t = s) ∨
       (s.busy = false ∧ s.cfg.admitsLen row.len = true ∧ t = runStages (startInvocation row s))) := by
  obtain ⟨hl, h⟩ := guarded_eq_next h
  refine ⟨hl, ?_⟩
  split at h
  · left; exact ⟨‹_›, by cases h; rfl⟩
  · split at h
    · right; exact ⟨by simpa using ‹¬ s.busy = true›, ‹_›, by cases h; rfl⟩
    · cases h

theorem execValidateBytes_cases {bytes : List Byte} {count : Nat} (h : execValidateBytes bytes count s = .next t) :
    s.cfg.legal = true ∧
      ((s.busy = true ∧ t = s) ∨
       (s.busy = false ∧ (bytes.length = s.cfg.cap ∧ count ≤ s.cfg.cap) ∧
        t = runValidate (loadBytes bytes count s))) := by
  obtain ⟨hl, h⟩ := guarded_eq_next h
  refine ⟨hl, ?_⟩
  split at h
  · left; exact ⟨‹_›, by cases h; rfl⟩
  · split at h
    · right; exact ⟨by simpa using ‹¬ s.busy = true›, ‹_›, by cases h; rfl⟩
    · cases h

theorem execBitAt_cases {index : Nat} (h : execBitAt index s = .next t) :
    s.cfg.legal = true ∧ index < s.hostRow.len ∧ t = returnAnswer (.bit (s.hostRow.bit index)) s := by
  obtain ⟨hl, h⟩ := guarded_eq_next h
  refine ⟨hl, ?_⟩
  by_cases hi : index < s.hostRow.len
  · rw [Row.bitAt_eq_some hi] at h
    exact ⟨hi, by cases h; rfl⟩
  · rw [Row.bitAt_eq_none (by omega)] at h
    cases h

end Sys2Proof.Machine
end

