-- ==== Sys2Proof/Laws/PerInstr.lean ====
section
/-! SUPPORT. Per-instruction families: what an encoding's length is, one lemma per constructor (spec 30_encoding.md
R50, R67: a pair is 2 bits, given as one byte; a frame is eight bytes; an operation has no encoding). -/

namespace Sys2Proof.Laws

/-- How many bytes the format of an instruction has; `none` for the `OP` rows. -/
def formatBytes : Instr → Option Nat
  | .pairFall => some 1
  | .pairRise => some 1
  | .pairInv00 => some 1
  | .pairInv11 => some 1
  | .framePower _ _ _ _ _ _ _ => some 8
  | .frameOther _ _ => some 8
  | .bitAt _ => none
  | .seek => none
  | .decode => none
  | .validateExtract => none
  | .decodeRow _ => none
  | .validateBytes _ _ => none

namespace EncodedLength

/-- Under every marker, the encoding of `i` has the length its format gives it, or does not exist. -/
def Statement (i : Instr) : Prop := ∀ marker : Byte, (encode marker i).map List.length = formatBytes i

theorem pairFall : Statement .pairFall := fun _ => rfl
theorem pairRise : Statement .pairRise := fun _ => rfl
theorem pairInv00 : Statement .pairInv00 := fun _ => rfl
theorem pairInv11 : Statement .pairInv11 := fun _ => rfl
theorem framePower (r : BitVec 8) (x0 : BitVec 1) (a : BitVec 15) (x1 : BitVec 1) (b : BitVec 15) (x2 : BitVec 1)
    (c : BitVec 15) : Statement (.framePower r x0 a x1 b x2 c) := fun _ => rfl
theorem frameOther (tag : BitVec 8) (rest : BitVec 56) : Statement (.frameOther tag rest) := fun _ => rfl
theorem bitAt (index : Nat) : Statement (.bitAt index) := fun _ => rfl
theorem seek : Statement .seek := fun _ => rfl
theorem decode : Statement .decode := fun _ => rfl
theorem validateExtract : Statement .validateExtract := fun _ => rfl
theorem decodeRow (row : Row) : Statement (.decodeRow row) := fun _ => rfl
theorem validateBytes (bytes : List Byte) (count : Nat) : Statement (.validateBytes bytes count) := fun _ => rfl

end EncodedLength
end Sys2Proof.Laws
end

