-- ==== Sys2Proof/Laws/Stages.lean ====
section
/-! SUPPORT. The two loops, one iteration at a time: the equations of `seekLoop` (spec R77 to R79) and of
`decodeLoop` (R92 to R97), which proofs about whole stages rewrite with. -/

namespace Sys2Proof

variable {row : Row} {pat : List Bool} {patLen i p : Nat}

theorem seekLoop_exit (fuel : Nat) (h : ¬ (i < row.len ∧ p < patLen)) :
    seekLoop row pat patLen fuel i p = (i, p) := by
  cases fuel with
  | zero => rfl
  | succ fuel => exact if_neg h

theorem seekLoop_match (fuel : Nat) (hi : i < row.len) (hp : p < patLen) (h : row.bit i = patternBit pat p) :
    seekLoop row pat patLen (fuel + 1) i p = seekLoop row pat patLen fuel (i + 1) (p + 1) := by
  simp [seekLoop, hi, hp, h, seekAdvance]

theorem seekLoop_mismatch (fuel : Nat) (hi : i < row.len) (hp : p < patLen) (h : row.bit i ≠ patternBit pat p) :
    seekLoop row pat patLen (fuel + 1) i p = seekLoop row pat patLen fuel (i - p + 1) 0 := by
  simp [seekLoop, hi, hp, h, seekAdvance]

variable {pos nbits : Nat} {buf : Memory}

theorem decodeLoop_cap : decodeLoop row 0 pos nbits buf = ⟨pos, nbits, buf, .cap⟩ := rfl

theorem decodeLoop_exhausted (room : Nat) (h : row.len ≤ pos + 1) :
    decodeLoop row (room + 1) pos nbits buf = ⟨pos, nbits, buf, .exhausted⟩ := if_pos h

theorem decodeLoop_inv (room : Nat) (h : pos + 1 < row.len) (he : row.bit pos = row.bit (pos + 1)) :
    decodeLoop row (room + 1) pos nbits buf = ⟨pos, nbits, buf, .inv⟩ := by
  simp [decodeLoop, he, show ¬ row.len ≤ pos + 1 by omega]

theorem decodeLoop_valid (room : Nat) (h : pos + 1 < row.len) (he : row.bit pos ≠ row.bit (pos + 1)) :
    decodeLoop row (room + 1) pos nbits buf =
      decodeLoop row room (pos + 2) (nbits + 1) (Memory.setBit buf nbits (row.bit (pos + 1))) := by
  simp [decodeLoop, he, show ¬ row.len ≤ pos + 1 by omega]

namespace Machine

/-- A quiet run of `n + 1` steps is one step and a quiet run of `n`. -/
theorem run_succ {s t : State} (n : Nat) (h : step s = .next t) :
    Host.Core.run Sys2Proof.core (n + 1) s = Host.Core.run Sys2Proof.core n t := by
  have h' : Sys2Proof.core.step s = .next t := h
  simp only [Host.Core.run, h']

theorem run_zero (s : State) : Host.Core.run Sys2Proof.core 0 s = .next s := rfl

/-- Runs compose. -/
theorem run_add {s t : State} (n k : Nat) (h : Host.Core.run Sys2Proof.core n s = .next t) :
    Host.Core.run Sys2Proof.core (n + k) s = Host.Core.run Sys2Proof.core k t := by
  induction n generalizing s with
  | zero => cases h; rw [Nat.zero_add]
  | succ n ih =>
    rw [show n + 1 + k = (n + k) + 1 by omega]
    simp only [Host.Core.run] at h ⊢
    cases hs : Sys2Proof.core.step s with
    | next u => rw [hs] at h; exact ih h
    | fault r => rw [hs] at h; cases h
    | refused r => rw [hs] at h; cases h

end Machine
end Sys2Proof
end

