-- ==== Sys2Proof/Laws/Steps.lean ====
section
/-! SUPPORT. One step of a running invocation that the host leaves alone is the step of its stage; one step of a
waiting block is what the host asks for. -/

namespace Sys2Proof.Machine

variable {s : State}

/-- The test the step makes is that the two rows are the same row. -/
theorem sameBits_iff (r r' : Row) : r.sameBits r' = true ↔ SameBits r r' := by
  simp [Row.sameBits, SameBits]

/-- With no input at all, the next step is undisturbed. -/
theorem undisturbed_of_nil (h : s.inputs = []) : s.undisturbed := by
  simp [State.undisturbed, State.nextInput, h]

theorem popInput_of_nil (h : s.inputs = []) : popInput s = s := by
  cases s
  simp only at h
  subst h
  rfl

theorem runningStep_of_undisturbed (h : s.undisturbed) (u : State) (k : State → StepResult) :
    runningStep s.nextInput u k = k u := by
  obtain ⟨h1, h2⟩ := h
  revert h1 h2
  cases s.nextInput <;> intro h1 h2
  · rfl
  · rfl
  · rfl
  · rfl
  · exact absurd rfl (h2 _)
  · exact absurd rfl h1

theorem step_of_seeking (hl : s.cfg.legal = true) (hs : s.stage = .seeking) (h : s.undisturbed) :
    step s = seekingStep (popInput s) := by
  unfold step sequencerStep
  rw [guarded_of_legal hl]
  simp [hs, runningStep_of_undisturbed h]

theorem step_of_decoding (hl : s.cfg.legal = true) (hs : s.stage = .decoding) (h : s.undisturbed) :
    step s = decodingStep (popInput s) := by
  unfold step sequencerStep
  rw [guarded_of_legal hl]
  simp [hs, runningStep_of_undisturbed h]

theorem step_of_validating (hl : s.cfg.legal = true) (hs : s.stage = .validating) (h : s.undisturbed) :
    step s = validatingStep (popInput s) := by
  unfold step sequencerStep
  rw [guarded_of_legal hl]
  simp [hs, runningStep_of_undisturbed h]

theorem step_of_waiting (hl : s.cfg.legal = true) (hb : s.busy = false) :
    step s = waitingStep s.nextInput (popInput s) := by
  unfold step sequencerStep
  rw [guarded_of_legal hl]
  obtain h | h | h := (not_busy_iff s).mp hb <;> simp [h]

end Sys2Proof.Machine
end

