-- ==== Sys2Proof/Tests/Slice0.lean ====
section
/-! SUPPORT. The model's own tests: the well-formedness checks refuse ill-formed terms, every encoded row decodes from
its written-out word, each instruction on one worked example of the spec, and a witness for the premises of each
statement. Expected values are those of spec/95_test_vectors.md and of the worked examples of spec/41 to 43; the toy
pattern is its configuration T. -/

namespace Sys2Proof.Tests

open Sys2Proof.Machine

/-! Helpers. -/

/-- Configuration T of 95_test_vectors.md, with 16-bit index registers so that R6 (e) is in play. -/
def toyConfig : Config where
  syncLen := 4
  syncPattern := [true, true, false, true]
  cap := 8
  minBytes := 7
  typeMarker := 0x0D#8
  nFields := 3
  fieldBase := 2
  highMask := 0x7F#8
  modelLabel := "CurrentCost TX"
  idxW := some 16
  maxLen := some 65534

/-- A bit string in index order. -/
def row (bits : List Nat) : Row := Row.ofBits (bits.map (· = 1))

/-- The state after reset under the toy configuration, with a row in place and a stage. -/
def at_ (stage : Stage) (r : Row) : State := 
  { State.reset with cfg := toyConfig, row := r, hostRow := r, stage := stage }

/-- The next state of an outcome. -/
def next? : StepResult → Option State
  | .next s => some s
  | .fault _ => none
  | .refused _ => none

/-- The fault of an outcome. -/
def fault? : StepResult → Option Fault
  | .next _ => none
  | .fault f => some f
  | .refused _ => none

/-- The refusal of an outcome. -/
def refusal? : StepResult → Option Refusal
  | .next _ => none
  | .fault _ => none
  | .refused r => some r

/-- One field of the next state. -/
def field {α : Type} (f : State → α) (r : StepResult) : Option α := (next? r).map f

/-- The document's frame with `0xXX` as `A5` (95_test_vectors.md `FR`). -/
def frameBytes : List Byte := [0x0D#8, 0xA5#8, 0x01#8, 0x2C#8, 0x00#8, 0x64#8, 0x00#8, 0xFA#8]

/-- A `VALIDATING` state with these bytes and this many decoded bits. -/
def validatingWith (bytes : List Byte) (nbits : Nat) : State :=
  { at_ .validating (row []) with buf := Memory.ofBytes bytes, nbits := nbits }

/-! WellFormed refuses an ill-formed term for each check. -/

theorem test_wellFormed_frameOther_tag_is_marker : wellFormed toyConfig (.frameOther 0x0D#8 0#56) = false := by decide
theorem test_wellFormed_decodeRow_unsorted :
    wellFormed toyConfig (.decodeRow { mem := [(1, 1#8), (0, 1#8)], len := 16 }) = false := by decide
theorem test_wellFormed_decodeRow_zero_listed :
    wellFormed toyConfig (.decodeRow { mem := [(0, 0#8)], len := 8 }) = false := by decide
theorem test_wellFormed_decodeRow_byte_beyond_row :
    wellFormed toyConfig (.decodeRow { mem := [(1, 1#8)], len := 8 }) = false := by decide
theorem test_wellFormed_decodeRow_too_long :
    wellFormed toyConfig (.decodeRow { mem := [], len := 65535 }) = false := by decide
theorem test_wellFormed_validateBytes_short : wellFormed toyConfig (.validateBytes [0x0D#8] 1) = false := by decide
theorem test_wellFormed_validateBytes_count : wellFormed toyConfig (.validateBytes frameBytes 9) = false := by decide
theorem test_wellFormed_accepts : wellFormed toyConfig (.decodeRow (row [1, 1, 0, 1])) = true := by decide

/-! Every encoded row from its written-out word (30_encoding.md R52, R55). -/

theorem test_decode_pairFall : decodeBytes 0x0D#8 [0b00000010#8] = .instr .pairFall := by decide
theorem test_decode_pairRise : decodeBytes 0x0D#8 [0b00000001#8] = .instr .pairRise := by decide
theorem test_decode_pairInv00 : decodeBytes 0x0D#8 [0b00000000#8] = .instr .pairInv00 := by decide
theorem test_decode_pairInv11 : decodeBytes 0x0D#8 [0b00000011#8] = .instr .pairInv11 := by decide
theorem test_decode_framePower :
    decodeBytes 0x0D#8 [0x0D#8, 0x00#8, 0x81#8, 0x2C#8, 0xFF#8, 0xFF#8, 0x80#8, 0x00#8] =
      .instr (.framePower 0#8 1#1 300#15 1#1 32767#15 1#1 0#15) := by decide
theorem test_decode_frameOther :
    decodeBytes 0x0D#8 [0x8D#8, 0xA5#8, 0x01#8, 0x2C#8, 0x00#8, 0x64#8, 0x00#8, 0xFA#8] =
      .instr (.frameOther 0x8D#8 0xA5012C006400FA#56) := by decide
theorem test_decode_pair_too_wide : decodeBytes 0x0D#8 [0b00000110#8] = .rejected .pairTooWide := by decide
theorem test_decode_no_format : decodeBytes 0x0D#8 [0#8, 0#8] = .rejected (.noFormatOfLength 2) := by decide
theorem test_decodeTableWord_frame :
    decodeTableWord 64 0x0DA5012C006400FA = some (.framePower 0xA5#8 0#1 300#15 0#1 100#15 0#1 250#15) := by decide
theorem test_decodeTableWord_pair : decodeTableWord 8 0b10 = some .pairFall := by decide
theorem test_encode_pairRise : encode 0x0D#8 .pairRise = some [0b01#8] := by decide
theorem test_encode_framePower :
    encode 0x0D#8 (.framePower 0xA5#8 0#1 300#15 0#1 100#15 0#1 250#15) = some frameBytes := by decide
/-- `mc(A5) = 0110011010011001` (42, worked examples). -/
theorem test_mc_A5 :
    mc [0xA5#8] = [0, 1, 1, 0, 0, 1, 1, 0, 1, 0, 0, 1, 1, 0, 0, 1].map (fun (n : Nat) => decide (n = 1)) := by decide
/-- `len=12 bytes A5 F0` is the row `101001011111` (30_encoding.md R51). -/
theorem test_row_packing : row [1, 0, 1, 0, 0, 1, 0, 1, 1, 1, 1, 1] = Row.ofBytes 12 [0xA5#8, 0xF0#8] := by decide

/-! Each instruction on a worked example. -/

/-- V-B5: the last bit of `len=12 bytes A5 F0`. -/
theorem test_bitAt_last : field State.answer
    (exec (.bitAt 11) { at_ .idle (row []) with hostRow := Row.ofBytes 12 [0xA5#8, 0xF0#8] }) =
    some (some (.bit true)) := by decide
/-- V-B6: index 12 has no value although the packed byte has a bit there. -/
theorem test_bitAt_out_of_range :
    fault? (exec (.bitAt 12) (at_ .idle (Row.ofBytes 12 [0xA5#8, 0xF0#8]))) = some .rowOutOfRange := by decide
/-- A row the host alters while none is lent goes to its row memory, which the read port shows (40_bitview.md R73). -/
theorem test_changeRow_reaches_the_port :
    field (fun t => (t.hostRow, t.row)) (step { at_ .idle (row []) with inputs := [.changeRow (row [0, 1])] }) =
      some (row [0, 1], row []) := by decide
/-- V-S2: restart to `i - p + 1 = 1`, not to 3. -/
theorem test_seek_restart : field State.searchResult (exec .seek (at_ .seeking (row [1, 1, 1, 0, 1]))) =
    some (some 5) := by decide
/-- V-S6: a partial match runs into the end; final `(i, p) = (7, 3)`, drop `NO_SYNC`. -/
theorem test_seek_not_found :
    field (fun t => (t.stage, t.i, t.p, t.dropReason)) (exec .seek (at_ .seeking (row [1, 1, 0, 0, 1, 1, 0]))) =
      some (.drop, 7, 3, some .noSync) := by decide
/-- V-D12: odd start, pairs `01` and `00`: buffer `80`, one bit, `pos = 3`, `INV`. -/
theorem test_decode_odd_start :
    field (fun t => (t.buf, t.nbits, t.pos, t.stopCause))
      (exec .decode { at_ .decoding (row [1, 0, 1, 0, 0, 1]) with found := true, syncEnd := 1 }) =
      some ([(0, 0x80#8)], 1, 3, some .inv) := by decide
/-- V-D4: a lone trailing bit is not read. -/
theorem test_decode_lone_trailing_bit :
    field (fun t => (t.buf, t.nbits, t.pos, t.stopCause))
      (exec .decode { at_ .decoding (row [0, 1, 1, 0, 1, 0, 1]) with found := true }) =
      some ([(0, 0x80#8)], 3, 6, some .exhausted) := by decide
/-- Three decoded ones give `E0` (30_encoding.md R54): the third of them. -/
theorem test_pairRise_third_bit :
    field (fun t => (t.buf, t.nbits, t.pos)) (exec .pairRise
      { at_ .decoding (row [0, 1, 0, 1, 0, 1]) with buf := [(0, 0xC0#8)], nbits := 2, pos := 4 }) =
      some ([(0, 0xE0#8)], 3, 6) := by decide
/-- V-D1, first pair: a decoded 0 leaves the byte as it is. -/
theorem test_pairFall_first_bit :
    field (fun t => (t.buf, t.nbits, t.pos)) (exec .pairFall (at_ .decoding (row [1, 0, 0, 1]))) =
      some ([], 1, 2) := by decide
/-- V-D6 and V-D5: the buffer, `nbits` and `pos` stay. -/
theorem test_pairInv00 :
    field (fun t => (t.stage, t.buf, t.nbits, t.pos, t.stopCause)) (exec .pairInv00
      { at_ .decoding (row [0, 1, 1, 0, 1, 0, 0, 0]) with buf := [(0, 0x80#8)], nbits := 3, pos := 6 }) =
      some (.validating, [(0, 0x80#8)], 3, 6, some .inv) := by decide
theorem test_pairInv11 :
    field (fun t => (t.stage, t.buf, t.nbits, t.pos, t.stopCause)) (exec .pairInv11
      { at_ .decoding (row [0, 1, 1, 0, 1, 0, 1, 1]) with buf := [(0, 0x80#8)], nbits := 3, pos := 6 }) =
      some (.validating, [(0, 0x80#8)], 3, 6, some .inv) := by decide
/-- V-F2: top bits discarded, maximum, zero; through the fetch of the frame. -/
theorem test_framePower_top_bits :
    let s := validatingWith [0x0D#8, 0x00#8, 0x81#8, 0x2C#8, 0xFF#8, 0xFF#8, 0x80#8, 0x00#8] 64
    field (fun t => (t.stage, t.recordValid, t.power0, t.power1, t.power2)) (exec (fetchFrame s) s) =
      some (.emit, true, 300#16, 32767#16, 0#16) := by decide
/-- V-F7: all 8 bits of byte 0 are compared. -/
theorem test_frameOther_all_bits :
    let s := validatingWith [0x8D#8, 0xA5#8, 0x01#8, 0x2C#8, 0x00#8, 0x64#8, 0x00#8, 0xFA#8] 64
    field (fun t => (t.stage, t.recordValid, t.dropReason)) (exec (fetchFrame s) s) =
      some (.drop, false, some .typeMismatch) := by decide
/-- V-F9: 50 bits, 7 started bytes, a partial byte 6 used as it stands. -/
theorem test_validateExtract_partial :
    field (fun t => (t.stage, t.power0, t.power1, t.power2)) (exec .validateExtract
      (validatingWith [0x0D#8, 0xA5#8, 0x01#8, 0x2C#8, 0x00#8, 0x64#8, 0xC0#8, 0x00#8] 50)) =
      some (.emit, 300#16, 100#16, 16384#16) := by decide
/-- A layout with another mask and base (00_scope.md R9): `buf[1..2]` masked `0x0F` is `0x0501`, two fields only. -/
theorem test_step_other_layout :
    let s := validatingWith [0x0D#8, 0xA5#8, 0x01#8, 0x2C#8, 0x00#8, 0x64#8, 0x00#8, 0xFA#8] 64
    field (fun t => (t.power0, t.power1, t.power2)) (step { s with cfg :=
      { toyConfig with fieldBase := 1, nFields := 2, highMask := 0x0F#8 } }) =
      some (0x0501#16, 0x0C00#16, 0#16) := by decide
/-- V-F8: length before type. -/
theorem test_validateExtract_length_first :
    field (fun t => (t.stage, t.dropReason)) (exec .validateExtract (validatingWith [0x0E#8] 24)) =
      some (.drop, some .truncated) := by decide
/-- P8 in small: the first occurrence is used, the pair behind it is `00`, drop `TRUNCATED`, `pos = 4`. -/
theorem test_decodeRow_false_sync :
    field (fun t => (t.syncEnd, t.pos, t.nbits, t.stopCause, t.dropReason))
      (exec (.decodeRow (row [1, 1, 0, 1, 0, 0, 1, 1, 0, 1])) (at_ .idle (row []))) =
      some (4, 4, 0, some .inv, some .truncated) := by decide
/-- P6 in small: no two adjacent ones, `NO_SYNC`, `sync_end` not written. -/
theorem test_decodeRow_no_sync :
    field (fun t => (t.i, t.p, t.found, t.syncEnd, t.dropReason))
      (exec (.decodeRow (row [0, 1, 0, 1, 0, 1])) (at_ .emit (row []))) =
      some (6, 1, false, 0, some .noSync) := by decide
/-- V-F1 through the adapter: `Frame(300, 100, 250)`. -/
theorem test_validateBytes_frame :
    field (fun t => (t.stage, t.power0, t.power1, t.power2)) (exec (.validateBytes frameBytes 8) (at_ .idle (row []))) =
      some (.emit, 300#16, 100#16, 250#16) := by decide
/-- S7: six bytes are too few whatever they hold. -/
theorem test_validateBytes_short :
    field (fun t => (t.stage, t.dropReason)) (exec (.validateBytes frameBytes 6) (at_ .drop (row []))) =
      some (.drop, some .truncated) := by decide
/-- A step fetches the pair at `pos` and runs it: V-D1, second pair `01`. -/
theorem test_step_runs_pair :
    field (fun t => (t.buf, t.nbits, t.pos)) (step { at_ .decoding (row [1, 0, 0, 1]) with found := true, nbits := 1, pos := 2 }) =
      some ([(0, 0x40#8)], 2, 4) := by decide
/-- The words the host places are the ones the next step runs. -/
theorem test_withFetchWord_pair :
    field (fun t => (t.nbits, t.pos)) (step (State.reset.withFetchWord 8 0b01)) = some (1, 2) := by decide
theorem test_withFetchWord_frame :
    field (fun t => (t.stage, t.power0)) (step (State.reset.withFetchWord 64 0x0DA5012C006400FA)) =
      some (.emit, 300#16) := by decide

/-! Concrete states that meet the invariant. -/

/-- A search that has just started on `11101`. -/
def searching : State := at_ .seeking (row [1, 1, 1, 0, 1])

/-- A decode that has just started after `1101`, with the pair `01` behind it. -/
def decoding : State :=
  { at_ .decoding (row [1, 1, 0, 1, 0, 1]) with i := 4, p := 4, found := true, syncEnd := 4, pos := 4 }

/-- A validation with nothing decoded, which will drop `TRUNCATED`. -/
def validating : State := at_ .validating (row [])

theorem searching_blockInv : BlockInv searching :=
  ⟨⟨by decide, by decide, fun _ => ⟨rfl, fun _ _ => rfl⟩, by decide, by decide, by decide⟩,
   ⟨by decide, by decide, by decide, fun _ k hk => absurd hk (Nat.not_lt_zero k), by decide, by decide, by decide,
    by decide, by decide, fun h => absurd h (by decide), by decide⟩,
   ⟨by decide, by decide, by decide, by decide, by decide, by decide, by decide⟩⟩

theorem decoding_blockInv : BlockInv decoding :=
  ⟨⟨by decide, by decide, fun _ => ⟨rfl, fun _ _ => rfl⟩, by decide, by decide, by decide⟩,
   ⟨by decide, by decide, by decide, by decide, by decide, by decide, by decide, by decide, by decide,
    fun _ n _ => BitVec.getLsbD_zero, by decide⟩,
   ⟨by decide, by decide, by decide, by decide, by decide, by decide, by decide⟩⟩

theorem validating_blockInv : BlockInv validating :=
  ⟨⟨by decide, by decide, fun _ => ⟨rfl, fun _ _ => rfl⟩, by decide, by decide, by decide⟩,
   ⟨by decide, by decide, by decide, by decide, by decide, by decide, by decide, by decide, by decide,
    fun h => absurd h (by decide), by decide⟩,
   ⟨by decide, by decide, by decide, by decide, by decide, by decide, by decide⟩⟩

/-- An invocation that ended in a drop, and one that ended with a record of zeros. -/
def dropped : State := { at_ .drop (row []) with dropReason := some .truncated }
def emitted : State := { at_ .emit (row []) with recordValid := true, time := some "12:00" }

theorem dropped_blockInv : BlockInv dropped :=
  ⟨⟨by decide, by decide, fun _ => ⟨rfl, fun _ _ => rfl⟩, by decide, by decide, by decide⟩,
   ⟨by decide, by decide, by decide, by decide, by decide, by decide, by decide, by decide, by decide,
    fun h => absurd h (by decide), by decide⟩,
   ⟨by decide, by decide, by decide, by decide, by decide, by decide, by decide⟩⟩

theorem emitted_blockInv : BlockInv emitted :=
  ⟨⟨by decide, by decide, fun _ => ⟨rfl, fun _ _ => rfl⟩, by decide, by decide, by decide⟩,
   ⟨by decide, by decide, by decide, by decide, by decide, by decide, by decide, by decide, by decide,
    fun h => absurd h (by decide), by decide⟩,
   ⟨by decide, by decide, by decide, by decide, by decide, by decide, by decide⟩⟩

theorem searching_searchInv : SearchInv searching :=
  ⟨fun _ t ht => absurd ht (Nat.not_lt_zero t), fun h => absurd h (by decide)⟩

/-- No host input in the way. -/
theorem undisturbed_of_quiet {s : State} (h : s.inputs = []) : s.undisturbed := by
  simp [State.undisturbed, State.nextInput, h]

/-! A witness for the premises of each statement that has premises, clause by clause where there are several. -/

theorem witness_PairTableMatchesTheLineCode :
    decoding.cfg.legal = true ∧ decoding.nbits < decoding.cfg.cap * 8 ∧ true ≠ false := by decide
theorem witness_DecodeOfEncodeIsTheInstruction :
    wellFormed toyConfig (.framePower 0xA5#8 1#1 300#15 0#1 100#15 1#1 250#15) = true ∧
    isOperation (.framePower 0xA5#8 1#1 300#15 0#1 100#15 1#1 250#15) = false ∧
    wellFormed toyConfig (.frameOther 0x0E#8 0#56) = true ∧ isOperation (.frameOther 0x0E#8 0#56) = false ∧
    wellFormed toyConfig .pairFall = true ∧ isOperation .pairFall = false := by decide
theorem witness_EncodeOfDecodeIsTheBytes :
    decodeBytes toyConfig.typeMarker frameBytes =
      .instr (.framePower 0xA5#8 0#1 300#15 0#1 100#15 0#1 250#15) := by decide
theorem witness_TypeByteAloneSelectsTheFrame : (0x0D#8 : Byte) = 0x0D#8 ∧ (0x8D#8 : Byte) ≠ 0x0D#8 := by decide
theorem witness_BitAtReturnsTheAddressedBit :
    let s := at_ .idle (Row.ofBytes 12 [0xA5#8, 0xF0#8])
    s.cfg.legal = true ∧ 0 < s.hostRow.len ∧ 11 < s.hostRow.len := by decide
theorem witness_BitAtOutOfRangeHasNoValue :
    let s := at_ .idle (Row.ofBytes 12 [0xA5#8, 0xF0#8])
    s.cfg.legal = true ∧ s.hostRow.len ≤ 12 := by decide
/-- The four arms: found (with `i = len` too), not found, match, mismatch. -/
theorem witness_SeekingStepFollowsTheFourArms :
    let premises (s : State) := s.cfg.legal = true ∧ s.stage = .seeking ∧ s.p ≤ s.cfg.syncLen ∧ s.inputs = []
    (premises { searching with i := 5, p := 4 } ∧ 4 = searching.cfg.syncLen) ∧
    (premises { searching with i := 5, p := 3 } ∧ searching.row.len ≤ 5) ∧
    (premises searching ∧ searching.row.bit 0 = patternBit searching.cfg.syncPattern 0) ∧
    (premises { searching with i := 2, p := 2 } ∧ searching.row.bit 2 ≠ patternBit searching.cfg.syncPattern 2) := by
  decide
theorem witness_ShortRowsHaveNoSync : (row [1, 1, 0]).len < 4 ∧ (row []).len < 4 ∧ (row []).len = 0 := by decide
theorem witness_ExactPatternIsFoundAtItsEnd :
    let s := { at_ .seeking (row [1, 1, 0, 1]) with i := 4, p := 4 }
    s.cfg.legal = true ∧ s.stage = .seeking ∧ s.p = s.cfg.syncLen ∧ s.inputs = [] ∧ s.i = s.row.len := by decide
theorem witness_SeekInstructionStoresItsResult :
    searching.cfg.legal = true ∧ searching.stage = .seeking ∧
    seek searching.row searching.cfg.syncPattern searching.cfg.syncLen = some 5 ∧
    seek (row [1, 1, 0]) searching.cfg.syncPattern searching.cfg.syncLen = none := by decide
theorem witness_StageOperationsAnswerWhenNotBusy :
    let s := { at_ .emit (row [1, 1, 0, 1]) with found := true, syncEnd := 4 }
    s.cfg.legal = true ∧ s.busy = false ∧ s.found = true := by decide
theorem witness_SearchStepsRunSeek :
    searching.cfg.legal = true ∧ searching.stage = .seeking ∧ searching.i = 0 ∧ searching.p = 0 ∧
    searching.inputs = [] := by decide
/-- The four arms: capacity (with the row at its end too), exhaustion, invalid pair, valid pair. -/
theorem witness_DecodingStepFollowsTheFourArms :
    let premises (s : State) := s.cfg.legal = true ∧ s.stage = .decoding ∧ s.nbits ≤ s.cfg.cap * 8 ∧ s.inputs = []
    (premises { decoding with nbits := 64, pos := 6 } ∧ 64 = decoding.cfg.cap * 8) ∧
    (premises { decoding with pos := 5 } ∧ decoding.row.len ≤ 5 + 1) ∧
    (premises { decoding with pos := 0 } ∧ decoding.row.bit 0 = decoding.row.bit 1) ∧
    (premises { decoding with nbits := 63 } ∧ decoding.row.bit 4 ≠ decoding.row.bit 5) := by decide
theorem witness_ValidPairsAppendTheirBit :
    decoding.cfg.legal = true ∧ decoding.nbits < decoding.cfg.cap * 8 ∧ 63 < decoding.cfg.cap * 8 ∧
    Memory.wf decoding.buf = true := by decide
theorem witness_InvalidPairsStopTheDecoder :
    decoding.cfg.legal = true ∧ decoding.nbits < decoding.cfg.cap * 8 := by decide
theorem witness_CapacityStopsBeforeThePair :
    let s := { decoding with nbits := 64 }
    s.cfg.legal = true ∧ s.nbits = s.cfg.cap * 8 := by decide
theorem witness_DecodeInstructionStoresItsResult :
    decoding.cfg.legal = true ∧ decoding.stage = .decoding ∧ decoding.found = true := by decide
theorem witness_DecodeWithoutAFoundSyncStops :
    let s := at_ .idle (row [])
    s.cfg.legal = true ∧ s.found = false ∧ s.busy = false ∧ (at_ .decoding (row [])).found = false := by decide
theorem witness_DecodingStepsRunDecode :
    decoding.cfg.legal = true ∧ decoding.stage = .decoding ∧ decoding.found = true ∧
    decoding.pos = decoding.syncEnd ∧ decoding.nbits = 0 ∧ decoding.buf = [] ∧ decoding.inputs = [] := by decide
/-- At the boundary, 49 decoded bits. -/
theorem witness_PowerFrameIsEmitted :
    let s := validatingWith frameBytes 49
    s.cfg.legal = true ∧ s.cfg.minBytes ≤ s.started ∧ s.cfg.printedLayout := ⟨by decide, by decide, rfl, rfl, rfl⟩
theorem witness_OtherFramesAreDropped :
    let s := validatingWith [0x0E#8] 49
    s.cfg.legal = true ∧ s.cfg.minBytes ≤ s.started := by decide
/-- At the boundary, 48 decoded bits. -/
theorem witness_ShortBuffersAreTruncated :
    let s := validatingWith frameBytes 48
    s.cfg.legal = true ∧ s.stage = .validating ∧ s.started < s.cfg.minBytes ∧ s.inputs = [] := by decide
theorem witness_ValidateExtractFollowsTheRule :
    let s := validatingWith frameBytes 49
    let u := validatingWith [0x8D#8] 49
    s.cfg.printedLayout ∧ s.cfg.legal = true ∧ s.stage = .validating ∧ s.cfg.minBytes ≤ s.started ∧
    Memory.read s.buf 0 = s.cfg.typeMarker ∧ u.stage = .validating ∧ u.cfg.minBytes ≤ u.started ∧
    Memory.read u.buf 0 ≠ u.cfg.typeMarker ∧ (validatingWith frameBytes 48).started < s.cfg.minBytes :=
  ⟨⟨rfl, rfl, rfl⟩, by decide⟩
theorem witness_ReservedBitsDoNotMatter :
    let s := validatingWith frameBytes 64
    let buf' := Memory.ofBytes [0x0D#8, 0xFF#8, 0x81#8, 0x2C#8, 0x80#8, 0x64#8, 0x80#8, 0xFA#8]
    (s.stage = .validating ∧ s.cfg.printedLayout ∧ Memory.read buf' 0 = Memory.read s.buf 0 ∧
      ∀ k, k < s.cfg.nFields →
        Memory.read buf' (s.cfg.fieldBase + 2 * k) &&& s.cfg.highMask =
          Memory.read s.buf (s.cfg.fieldBase + 2 * k) &&& s.cfg.highMask ∧
        Memory.read buf' (s.cfg.fieldBase + 2 * k + 1) = Memory.read s.buf (s.cfg.fieldBase + 2 * k + 1)) ∧
    (∀ k, k = 0 ∨ k = 3 ∨ k = 5 ∨ k = 7 → Memory.read buf' k = Memory.read s.buf k) ∧
    (∀ k, k = 2 ∨ k = 4 ∨ k = 6 → Memory.read buf' k &&& 0x7F#8 = Memory.read s.buf k &&& 0x7F#8) ∧
    (next? (exec .validateExtract s)).isSome = true := by
  refine ⟨⟨by decide, ⟨rfl, rfl, rfl⟩, by decide, by decide⟩, ?_, ?_, by decide⟩ <;> (intro k hk; rcases hk with rfl | hk) <;> try decide
  all_goals rcases hk with rfl | hk <;> try decide
  all_goals first | (subst hk; decide) | (rcases hk with rfl | rfl <;> decide)
theorem witness_ValidatingStepIsValidateExtract : validating.stage = .validating ∧ validating.undisturbed :=
  ⟨by decide, undisturbed_of_quiet rfl⟩
/-- From each stage that takes a start, at the greatest length. -/
theorem witness_StartSetsEveryRegister :
    let s := { at_ .drop (row []) with inputs := [.start { mem := [], len := 65534 }] }
    s.cfg.legal = true ∧ s.stage = .drop ∧ s.nextInput = .start { mem := [], len := 65534 } ∧
    s.cfg.admitsLen 65534 = true ∧ (at_ .idle (row [])).stage = .idle ∧ (at_ .emit (row [])).stage = .emit := by decide
/-- Busy, done with a record, done without one, and each stage that takes a start at the greatest length. -/
theorem witness_StartAndDoneHandshake :
    (searching.busy = true) ∧ (BlockInv emitted ∧ emitted.done = true ∧ emitted.recordValid = true) ∧
    (BlockInv dropped ∧ dropped.done = true ∧ dropped.recordValid = false) ∧
    let s := { emitted with inputs := [.start { mem := [], len := 65534 }] }
    s.cfg.legal = true ∧ s.stage = .emit ∧ s.nextInput = .start { mem := [], len := 65534 } ∧
    s.cfg.admitsLen 65534 = true ∧ dropped.stage = .drop ∧ (at_ .idle (row [])).stage = .idle :=
  ⟨by decide, ⟨emitted_blockInv, by decide, by decide⟩, ⟨dropped_blockInv, by decide, by decide⟩, by decide⟩
theorem witness_OtherRequestsWhileBusyAreIgnored : searching.busy = true ∧ searching.cfg.legal = true := by decide
/-- In `DROP`, `VALIDATE_EXTRACT` called, and quiet in `EMIT`. -/
theorem witness_OnlyAStartLeavesAWaitingStage :
    let s := { dropped with inputs := [.call .validateExtract] }
    s.busy = false ∧ s.nextInput = .call .validateExtract ∧ (next? (step s)).isSome = true ∧
    emitted.busy = false ∧ emitted.nextInput = .quiet ∧ (next? (step emitted)).isSome = true ∧
    (next? (step { emitted with inputs := [.changeRow (row [1])] })).isSome = true := by decide
theorem witness_NothingChangesWithoutARequest :
    let s := at_ .idle (row [])
    s.cfg.legal = true ∧ s.busy = false ∧ s.nextInput = .quiet := by decide
theorem witness_OperationsOfAnotherStageAreTurnedAway :
    searching.cfg.legal = true ∧ searching.busy = true ∧ searching.stage ≠ .decoding ∧
    searching.stage ≠ .validating ∧ decoding.busy = true ∧ decoding.stage ≠ .seeking := by decide
/-- One step from each running stage, and from a stage that waits. -/
theorem witness_StagesMoveForwardOnly :
    (next? (step searching)).isSome = true ∧ (next? (step decoding)).isSome = true ∧
    (next? (step validating)).isSome = true ∧ (next? (step (at_ .idle (row [])))).isSome = true ∧
    searching.nextInput ≠ .reset := by decide
theorem witness_DecodeRowRunsTheThreeStages :
    let s := at_ .idle (row [])
    s.cfg.legal = true ∧ s.busy = false ∧ s.cfg.admitsLen (row [1, 1, 0, 1]).len = true ∧
    seek (row [1, 1, 0, 1]) s.cfg.syncPattern s.cfg.syncLen = some 4 ∧
    seek (row []) s.cfg.syncPattern s.cfg.syncLen = none := by decide
theorem witness_StepsRunDecodeRow :
    let s := { at_ .idle (row []) with inputs := [.start (row [1, 1, 0, 1])] }
    s.cfg.legal = true ∧ s.busy = false ∧ s.cfg.admitsLen (row [1, 1, 0, 1]).len = true ∧
    s.inputs = [.start (row [1, 1, 0, 1])] := by decide
/-- Two rows of the same 4 bits whose last packed byte differs beyond them. -/
theorem witness_DecodeRowDependsOnTheRowBitsOnly :
    SameBits (Row.ofBytes 4 [0xD0#8]) (Row.ofBytes 4 [0xDF#8]) ∧
    Row.ofBytes 4 [0xD0#8] ≠ Row.ofBytes 4 [0xDF#8] ∧
    (at_ .idle (row [])).busy = false ∧ (at_ .drop (row [1])).busy = false ∧ toyConfig.legal = true ∧
    toyConfig.admitsLen 4 = true :=
  ⟨⟨rfl, fun a ha => by
      have h4 : a < 4 := ha
      interval_cases a <;> decide⟩, by decide, by decide, by decide, by decide, by decide⟩
/-- The noise `0` before the pattern. -/
theorem witness_NoisePatternAndFrameEmitThePowers :
    let s := at_ .idle (row [])
    s.cfg.legal = true ∧ s.cfg.cap = 8 ∧ s.busy = false ∧ s.cfg.printedLayout ∧
    (∀ t, t < [false].length →
      ¬ OccursAt (Row.ofBits ([false] ++ s.cfg.syncPattern)) s.cfg.syncPattern s.cfg.syncLen t) ∧
    s.cfg.admitsLen (Row.ofBits ([false] ++ s.cfg.syncPattern ++ mc frameBytes)).len = true := by
  refine ⟨by decide, by decide, by decide, ⟨rfl, rfl, rfl⟩, ?_, by show toyConfig.admitsLen 133 = true; decide⟩
  intro t ht hocc
  have h0 : t = 0 := by
    have : t < 1 := ht
    omega
  subst h0
  exact absurd (hocc.2 0 (by decide)) (by decide)
theorem witness_ValidateBytesSkipsSearchAndDecode :
    let s := { at_ .idle (row []) with inputs := [.bypass frameBytes 8] }
    s.cfg.legal = true ∧ s.busy = false ∧ frameBytes.length = s.cfg.cap ∧ 8 ≤ s.cfg.cap ∧ 0 ≤ s.cfg.cap ∧
    s.nextInput = .bypass frameBytes 8 ∧ ¬ (frameBytes.length = s.cfg.cap ∧ 9 ≤ s.cfg.cap) := by decide
theorem witness_EmittedRecordHasLabelAndPowers :
    (validatingWith frameBytes 64).stage = .validating ∧ (validatingWith frameBytes 64).undisturbed ∧
    field State.stage (step (validatingWith frameBytes 64)) = some .emit :=
  ⟨by decide, undisturbed_of_quiet rfl, by decide⟩
/-- A step that drops, with the invariant: `TRUNCATED`. -/
theorem witness_DropWritesStageAndReasonOnly :
    BlockInv validating ∧ validating.busy = true ∧ validating.undisturbed ∧
    field State.stage (step validating) = some .drop :=
  ⟨validating_blockInv, by decide, undisturbed_of_quiet rfl, by decide⟩
theorem witness_ResetPutsEveryRegisterBack :
    let s := { decoding with inputs := [.reset] }
    s.cfg.legal = true ∧ s.nextInput = .reset := by decide
/-- One configuration that breaks each constraint of R6. -/
theorem witness_IllegalConfigurationIsRefused :
    ¬ 1 ≤ { toyConfig with syncLen := 0, syncPattern := [] }.syncLen ∧
    ¬ toyConfig.fieldBase + 2 * toyConfig.nFields ≤ { toyConfig with cap := 7 }.cap ∧
    ¬ 1 ≤ { toyConfig with minBytes := 0 }.minBytes ∧ ¬ { toyConfig with minBytes := 9 }.minBytes ≤ toyConfig.cap ∧
    (toyConfig.idxW = some 16 ∧ { toyConfig with maxLen := some 65535 }.maxLen = some 65535 ∧ ¬ 65535 + 2 ≤ 2 ^ 16) ∧
    refusal? (step { searching with cfg := { toyConfig with cap := 7 } }) = some .illegalConfiguration := by decide
/-- One configuration for each check of the model's own, and one that is legal, at the bound of R6 (e). -/
theorem witness_ModelsOwnConfigurationChecks :
    { toyConfig with syncLen := 5 }.syncPattern.length ≠ { toyConfig with syncLen := 5 }.syncLen ∧
    3 < { toyConfig with nFields := 4, cap := 10 }.nFields ∧
    ({ toyConfig with maxLen := none }.idxW ≠ none ∧ { toyConfig with maxLen := none }.maxLen = none) ∧
    toyConfig.idxW = some 16 ∧ toyConfig.maxLen = some 65534 ∧ 65534 + 2 ≤ 2 ^ 16 ∧ toyConfig.nFields ≤ 3 ∧
    toyConfig.syncPattern.length = toyConfig.syncLen ∧ toyConfig.fieldBase + 2 * toyConfig.nFields ≤ toyConfig.cap := by
  decide
theorem witness_ChangedRowIsRefused :
    let s := { searching with inputs := [.changeRow (row [1])] }
    let same := { mem := [(0, 0xEF#8)], len := 5 : Row }
    s.cfg.legal = true ∧ s.busy = true ∧ s.nextInput = .changeRow (row [1]) ∧ s.rowLent = true ∧
    ¬ SameBits (row [1]) s.row ∧ SameBits same s.row ∧ same ≠ s.row ∧
    validating.busy = true ∧ validating.rowLent = false :=
  ⟨by decide, by decide, by decide, by decide, fun h => absurd h.1 (by decide),
    ⟨rfl, fun a ha => by
      have h5 : a < 5 := ha
      interval_cases a <;> decide⟩, by decide, by decide, by decide⟩
theorem witness_ConstantsAndRowAreNeverWritten :
    (next? (exec .pairRise decoding)).isSome = true ∧ (next? (step decoding)).isSome = true ∧ decoding.busy = true := by
  decide
theorem witness_StepKeepsTheInvariant :
    BlockInv searching ∧ BlockInv decoding ∧ (next? (step searching)).isSome = true ∧
    (next? (step decoding)).isSome = true :=
  ⟨searching_blockInv, decoding_blockInv, by decide, by decide⟩
theorem witness_StepKeepsTheSearchSound :
    BlockInv searching ∧ SearchInv searching ∧ (next? (step searching)).isSome = true :=
  ⟨searching_blockInv, searching_searchInv, by decide⟩
/-- A state with the invariant in which a bad call of the host faults, and one that runs on. -/
theorem witness_StepFaultsOnlyOnABadCall :
    BlockInv searching ∧ searching.busy = true ∧ searching.undisturbed ∧
    fault? (step { at_ .idle (row []) with inputs := [.call (.bitAt 0)] }) = some .rowOutOfRange ∧
    fault? (step { at_ .idle (row []) with inputs := [.call .decode] }) = some .syncEndUnreadable :=
  ⟨searching_blockInv, by decide, undisturbed_of_quiet rfl, by decide, by decide⟩
theorem witness_EveryInvocationEnds : BlockInv searching ∧ searching.busy = true ∧ searching.inputs = [] :=
  ⟨searching_blockInv, by decide, by decide⟩
theorem witness_IndexRegistersNeverWrap : BlockInv decoding ∧ decoding.cfg.idxW = some 16 :=
  ⟨decoding_blockInv, by decide⟩
theorem witness_StepRunsTheFetchedPair :
    decoding.cfg.legal = true ∧ decoding.stage = .decoding ∧ decoding.inputs = [] ∧
    decoding.nbits < decoding.cfg.cap * 8 ∧ decoding.row.bitAt decoding.pos = some false ∧
    decoding.row.bitAt (decoding.pos + 1) = some true := by decide
theorem witness_StepRunsTheFetchedFrame :
    let s := validatingWith frameBytes 64
    s.cfg.legal = true ∧ s.stage = .validating ∧ s.inputs = [] ∧ s.cfg.minBytes ≤ s.started ∧
    decodeBytes s.cfg.typeMarker ((List.range 8).map (Memory.read s.buf)) =
      .instr (.framePower 0xA5#8 0#1 300#15 0#1 100#15 0#1 250#15) := by decide
theorem witness_StepRunsTheCalledOperation :
    let s := { at_ .idle (row []) with inputs := [.call .seek] }
    s.cfg.legal = true ∧ s.busy = false ∧ s.nextInput = .call .seek ∧ isOperation .seek = true := by decide

end Sys2Proof.Tests
end

/-! The outcome of an invocation depends on the bits of its row and the configuration only (00_scope.md R8,
20_memory.md R33). The two loops read the row below `len` only; each stage takes two states that agree on the registers
and on the row's bits to two such states; and a start makes any two states agree. -/

namespace Sys2Proof

section SameBits

variable {row row' : Row} (h : SameBits row row')
include h

/-- Every comparison of the search is in range, so rows of the same bits move the cursors alike. -/
theorem SameBits.seekLoop_eq (pat : List Bool) (patLen fuel i p : Nat) :
    seekLoop row pat patLen fuel i p = seekLoop row' pat patLen fuel i p := by
  obtain ⟨hlen, hbit⟩ := h
  induction fuel generalizing i p with
  | zero => rfl
  | succ fuel ih =>
    by_cases hin : i < row.len ∧ p < patLen
    · obtain ⟨hi, hp⟩ := hin
      have hi' : i < row'.len := hlen ▸ hi
      by_cases hm : row.bit i = patternBit pat p
      · have hm' : row'.bit i = patternBit pat p := hbit i hi ▸ hm
        rw [seekLoop_match fuel hi hp hm, seekLoop_match fuel hi' hp hm', ih]
      · have hm' : row'.bit i ≠ patternBit pat p := hbit i hi ▸ hm
        rw [seekLoop_mismatch fuel hi hp hm, seekLoop_mismatch fuel hi' hp hm', ih]
    · rw [seekLoop_exit _ hin, seekLoop_exit _ (hlen ▸ hin)]

theorem SameBits.seekCursors_eq (pat : List Bool) (patLen : Nat) :
    seekCursors row pat patLen = seekCursors row' pat patLen := by
  unfold seekCursors
  rw [h.seekLoop_eq, h.1]

/-- The decoder tests for exhaustion before it reads a pair, so rows of the same bits are decoded alike. -/
theorem SameBits.decodeLoop_eq (room pos nbits : Nat) (buf : Memory) :
    decodeLoop row room pos nbits buf = decodeLoop row' room pos nbits buf := by
  obtain ⟨hlen, hbit⟩ := h
  induction room generalizing pos nbits buf with
  | zero => rfl
  | succ room ih =>
    by_cases hin : pos + 1 < row.len
    · have hin' : pos + 1 < row'.len := hlen ▸ hin
      have h1 : row.bit pos = row'.bit pos := hbit pos (by omega)
      have h0 : row.bit (pos + 1) = row'.bit (pos + 1) := hbit (pos + 1) hin
      by_cases hv : row.bit pos = row.bit (pos + 1)
      · rw [decodeLoop_inv room hin hv, decodeLoop_inv room hin' (h1 ▸ h0 ▸ hv)]
      · rw [decodeLoop_valid room hin hv, decodeLoop_valid room hin' (h1 ▸ h0 ▸ hv), ih, h0]
    · rw [decodeLoop_exhausted room (by omega), decodeLoop_exhausted room (by omega)]

theorem SameBits.decodeLine_eq (start capacity : Nat) :
    decodeLine row start capacity = decodeLine row' start capacity := h.decodeLoop_eq _ _ _ _

end SameBits

namespace Machine

/-- The state with the constants and the registers of 10_state.md R10 only: the rows, the host's requests and the
model's own fields are put to fixed values. -/
def State.registersOnly (s : State) : State :=
  { s with row := ⟨[], 0⟩, hostRow := ⟨[], 0⟩, inputs := [], time := none, clockReads := 0, answer := none }

theorem registersOnly_eq_iff {s s' : State} : s.registersOnly = s'.registersOnly ↔
    s.cfg = s'.cfg ∧ s.stage = s'.stage ∧ s.i = s'.i ∧ s.p = s'.p ∧ s.found = s'.found ∧ s.syncEnd = s'.syncEnd ∧
      s.pos = s'.pos ∧ s.nbits = s'.nbits ∧ s.buf = s'.buf ∧ s.stopCause = s'.stopCause ∧
      s.recordValid = s'.recordValid ∧ s.dropReason = s'.dropReason ∧
      s.power0 = s'.power0 ∧ s.power1 = s'.power1 ∧ s.power2 = s'.power2 := by
  simp [State.registersOnly]

/-- Two states that agree on all an invocation may depend on: the constants, the registers and the bits of the row. -/
structure SameInvocation (s s' : State) : Prop where
  row : SameBits s.row s'.row
  registers : s.registersOnly = s'.registersOnly

theorem SameInvocation.cfg {s s' : State} (h : SameInvocation s s') : s.cfg = s'.cfg := by
  obtain ⟨hcfg, -⟩ := registersOnly_eq_iff.mp h.registers
  exact hcfg

theorem SameInvocation.stage {s s' : State} (h : SameInvocation s s') : s.stage = s'.stage := by
  obtain ⟨-, hstage, -⟩ := registersOnly_eq_iff.mp h.registers
  exact hstage

theorem SameInvocation.syncEnd {s s' : State} (h : SameInvocation s s') : s.syncEnd = s'.syncEnd := by
  obtain ⟨-, -, -, -, -, hend, -⟩ := registersOnly_eq_iff.mp h.registers
  exact hend

/-- An update keeps the agreement if it leaves the row alone and the registers it leaves are made of registers only. -/
theorem SameInvocation.update {s s' : State} (h : SameInvocation s s') (f : State → State)
    (hrow : ∀ u, (f u).row = u.row)
    (hreg : ∀ u, (f u).registersOnly = (f u.registersOnly).registersOnly) : SameInvocation (f s) (f s') where
  row := by rw [hrow, hrow]; exact h.row
  registers := by rw [hreg s, hreg s', h.registers]

/-- Whatever an earlier invocation left, a start writes every register (10_state.md R26). -/
theorem startInvocation_sameInvocation {s s' : State} {row row' : Row} (hc : s.cfg = s'.cfg)
    (h : SameBits row row') : SameInvocation (startInvocation row s) (startInvocation row' s') where
  row := h
  registers := by simp only [startInvocation, startValues, State.registersOnly, hc]

/-- The cursors end alike, so the search is found or dropped alike. -/
theorem SameInvocation.runSeek {s s' : State} (h : SameInvocation s s') :
    SameInvocation (runSeek s) (runSeek s') := by
  have hcursors (c : Nat × Nat) : SameInvocation (setCursors c s) (setCursors c s') :=
    h.update (setCursors c) (fun _ => rfl) (fun _ => rfl)
  unfold Machine.runSeek
  simp only [h.row.seekCursors_eq, h.cfg]
  split
  · exact (hcursors _).update (enterDecoding _) (fun _ => rfl) (fun _ => rfl)
  · exact (hcursors _).update dropNoSync (fun _ => rfl) (fun _ => rfl)

theorem SameInvocation.runDecode {s s' : State} (h : SameInvocation s s') :
    SameInvocation (runDecode s) (runDecode s') := by
  unfold Machine.runDecode
  rw [h.row.decodeLine_eq, h.syncEnd, h.cfg]
  exact h.update (storeDecode _) (fun _ => rfl) (fun _ => rfl)

theorem runValidate_row (s : State) : (runValidate s).row = s.row := by
  obtain ⟨-, h⟩ | ⟨-, -, h⟩ | ⟨-, -, h⟩ := runValidate_cases s <;> simp [h]

/-- Validation reads the configuration, the buffer and its count; its clock reading is no register. -/
theorem runValidate_registersOnly (s : State) :
    (runValidate s).registersOnly = (runValidate s.registersOnly).registersOnly := by
  change (applyVerdict (validateFrame s.cfg s.buf s.started) s).registersOnly =
    (applyVerdict (validateFrame s.cfg s.buf s.started) s.registersOnly).registersOnly
  cases validateFrame s.cfg s.buf s.started <;> rfl

theorem SameInvocation.runValidate {s s' : State} (h : SameInvocation s s') :
    SameInvocation (runValidate s) (runValidate s') :=
  h.update Machine.runValidate runValidate_row runValidate_registersOnly

/-- The searches end in the same stage, so the later stages run in both or in neither. -/
theorem SameInvocation.runStages {s s' : State} (h : SameInvocation s s') :
    SameInvocation (runStages s) (runStages s') := by
  unfold Machine.runStages
  simp only [h.runSeek.stage]
  split
  · exact h.runSeek.runDecode.runValidate
  · exact h.runSeek

/-- `DECODE_ROW` on an admitted row, no invocation running: the start and then the stages (44_decode_session.md R125). -/
theorem exec_decodeRow {s : State} {row : Row} (hl : s.cfg.legal = true) (hb : s.busy = false)
    (ha : s.cfg.admitsLen row.len = true) :
    exec (.decodeRow row) s = .next (runStages (startInvocation row s)) := by
  simp [exec, execDecodeRow, hl, hb, ha]

/-- Settles O39: a start makes the two runs agree, and every stage keeps them so. -/
theorem decodeRowDependsOnTheRowBitsOnly : Obligations.DecodeRowDependsOnTheRowBitsOnly := by
  intro s s' row row' hc hl hb hb' hrow ha
  have h := (startInvocation_sameInvocation hc hrow).runStages.registers
  obtain ⟨-, hregs⟩ := registersOnly_eq_iff.mp h
  exact ⟨_, _, exec_decodeRow hl hb ha, exec_decodeRow (hc ▸ hl) hb' (hc ▸ hrow.1 ▸ ha), hregs⟩

end Machine
end Sys2Proof

namespace Sys2Proof
namespace Machine

/-- The model's formula is the library's rounded-up quotient, so its least-upper-bound laws apply. -/
theorem bytesStarted_eq_ceilDiv (nbits : Nat) : bytesStarted nbits = nbits ⌈/⌉ 8 :=
  (Nat.ceilDiv_eq_add_pred_div nbits 8).symm

theorem bytesStarted_le_iff {nbits k : Nat} : bytesStarted nbits ≤ k ↔ nbits ≤ 8 * k := by
  rw [bytesStarted_eq_ceilDiv, ceilDiv_le_iff_le_mul (by decide)]

/-- Settles O25: the rounded-up quotient's law for every count, and the printed counts by evaluation. -/
theorem startedBytesAreTheCeiling : Obligations.StartedBytesAreTheCeiling :=
  ⟨fun _ _ => bytesStarted_le_iff, by decide⟩

end Machine
end Sys2Proof

/-! The search of short rows and of rows that hold the pattern at the cursors (41_sync_pattern_searcher.md R80, R84). -/

namespace Sys2Proof

/-- A candidate never starts before the row nor reaches past its end: from such cursors every iteration leaves such
cursors. -/
theorem seekLoop_bounded (row : Row) (pat : List Bool) (patLen fuel : Nat) {i p : Nat}
    (hp : p ≤ i) (hi : i ≤ row.len) :
    (seekLoop row pat patLen fuel i p).2 ≤ (seekLoop row pat patLen fuel i p).1 ∧
      (seekLoop row pat patLen fuel i p).1 ≤ row.len := by
  induction fuel generalizing i p with
  | zero => exact ⟨hp, hi⟩
  | succ fuel ih =>
    by_cases hin : i < row.len ∧ p < patLen
    · obtain ⟨hlt, hpat⟩ := hin
      by_cases hm : row.bit i = patternBit pat p
      · rw [seekLoop_match fuel hlt hpat hm]
        exact ih (by omega) (by omega)
      · rw [seekLoop_mismatch fuel hlt hpat hm]
        exact ih (by omega) (by omega)
    · rw [seekLoop_exit _ hin]
      exact ⟨hp, hi⟩

theorem seekCursors_snd_le_len (row : Row) (pat : List Bool) (patLen : Nat) :
    (seekCursors row pat patLen).2 ≤ row.len := by
  obtain ⟨hp, hi⟩ := seekLoop_bounded row pat patLen (row.len * patLen) (Nat.le_refl 0) (Nat.zero_le _)
  exact hp.trans hi

theorem seekCursors_of_empty {row : Row} (h : row.len = 0) (pat : List Bool) (patLen : Nat) :
    seekCursors row pat patLen = (0, 0) :=
  seekLoop_exit _ (by omega)

/-- Settles O11: the pattern cursor never passes the row's length, so it does not reach a longer pattern's. -/
theorem shortRowsHaveNoSync : Obligations.ShortRowsHaveNoSync := by
  intro row pat patLen hlen
  have hle := seekCursors_snd_le_len row pat patLen
  exact ⟨if_neg (by omega), fun hempty => seekCursors_of_empty hempty pat patLen⟩

/-- While the row's bits are the pattern's, both cursors advance together (R78). -/
theorem seekLoop_run_of_matches {row : Row} {pat : List Bool} {patLen i p : Nat} (n fuel : Nat)
    (hi : i + n ≤ row.len) (hp : p + n ≤ patLen)
    (h : ∀ k < n, row.bit (i + k) = patternBit pat (p + k)) :
    seekLoop row pat patLen (fuel + n) i p = seekLoop row pat patLen fuel (i + n) (p + n) := by
  induction n generalizing fuel with
  | zero => rfl
  | succ n ih =>
    rw [← Nat.add_assoc, Nat.add_right_comm, ih (fuel + 1) (by omega) (by omega) (fun k hk => h k (by omega))]
    exact seekLoop_match fuel (by omega) (by omega) (h n (by omega))

/-- A row that starts with the pattern is searched in `patLen` comparisons. -/
theorem seekCursors_of_leading_pattern {row : Row} {pat : List Bool} {patLen : Nat} (hlen : patLen ≤ row.len)
    (h : ∀ k < patLen, row.bit k = patternBit pat k) : seekCursors row pat patLen = (patLen, patLen) := by
  have hfuel : patLen ≤ row.len * patLen := (Nat.le_mul_self patLen).trans (Nat.mul_le_mul_right _ hlen)
  unfold seekCursors
  rw [← Nat.sub_add_cancel hfuel, seekLoop_run_of_matches patLen _ (by omega) (by omega) (by simpa using h)]
  simpa using seekLoop_exit _ (by omega)

theorem seek_of_leading_pattern {row : Row} {pat : List Bool} {patLen : Nat} (hlen : patLen ≤ row.len)
    (h : ∀ k < patLen, row.bit k = patternBit pat k) : seek row pat patLen = some patLen := by
  simp [seek, seekCursors_of_leading_pattern hlen h]

namespace Machine

/-- The success test comes first: whatever the input cursor, a complete match enters `DECODING` (R80, R88). -/
theorem seekingStep_of_complete {s : State} (h : s.p = s.cfg.syncLen) :
    seekingStep s = .next (enterDecoding s.i s) := if_pos h

/-- Settles O12: every comparison of the exact row matches; a complete match is found at the row's end as well. -/
theorem exactPatternIsFoundAtItsEnd : Obligations.ExactPatternIsFoundAtItsEnd := by
  constructor
  · intro pat
    exact seek_of_leading_pattern (Row.len_ofBits pat).ge (fun k _ => Row.bit_ofBits pat k)
  · intro s hl hs hp hu
    have hstep : step s = .next (enterDecoding s.i (popInput s)) :=
      (step_of_seeking hl hs hu).trans (seekingStep_of_complete hp)
    exact ⟨_, hstep, rfl, rfl, rfl⟩

end Machine
end Sys2Proof

/-! The line decoder: what a valid pair writes into the buffer (42_manchester_line_decoder.md R97, 20_memory.md R35),
and the decoding of a line-code image (R104). -/

namespace Sys2Proof

/-- `BufSetBit` as a byte operation: the byte of bit `n` takes the bit, every other byte is kept. -/
theorem Memory.read_setBit {m : Memory} (n : Nat) (d : Bool) (a : Nat) (h : Memory.wf m = true) :
    Memory.read (Memory.setBit m n d) a =
      if a = n / 8 then Memory.read m (n / 8) ||| bitInByte n d else Memory.read m a :=
  Memory.read_write _ _ _ h

/-- A byte is known by its eight bits. -/
theorem Memory.read_eq_of_bits {m : Memory} {k : Nat} {b : Byte}
    (h : ∀ j < 8, Memory.bit m (8 * k + j) = b.getLsbD (7 - j)) : Memory.read m k = b := by
  apply BitVec.eq_of_getLsbD_eq
  intro i hi
  have hbit := h (7 - i) (by omega)
  unfold Memory.bit at hbit
  rwa [show (8 * k + (7 - i)) / 8 = k by omega, show 7 - (8 * k + (7 - i)) % 8 = i by omega,
    show 7 - (7 - i) = i by omega] at hbit

/-- The bits of a byte string, MSB first within each byte. -/
theorem getD_flatMap_byteBits (bytes : List Byte) (k j : Nat) (hj : j < 8) :
    (bytes.flatMap byteBits).getD (8 * k + j) false = (bytes.getD k 0#8).getLsbD (7 - j) := by
  induction bytes generalizing k with
  | nil => simp
  | cons b bs ih =>
    have hlen : (byteBits b).length = 8 := by simp [byteBits]
    rw [List.flatMap_cons]
    cases k with
    | zero =>
      rw [List.getD_append _ _ _ _ (by omega)]
      simp [byteBits, hj]
    | succ k =>
      rw [List.getD_append_right _ _ _ _ (by omega), hlen, show 8 * (k + 1) + j - 8 = 8 * k + j by omega, ih]
      rfl

theorem length_flatMap_byteBits (bytes : List Byte) : (bytes.flatMap byteBits).length = 8 * bytes.length := by
  simp [List.length_flatMap, byteBits, Nat.mul_comm]

theorem length_flatMap_mcBit (ds : List Bool) : (ds.flatMap mcBit).length = 2 * ds.length := by
  simp [List.length_flatMap, mcBit, Nat.mul_comm]

/-- Pair `k` of an image is the symbols of data bit `k` (30_encoding.md R66 (a)). -/
theorem getD_flatMap_mcBit {ds : List Bool} {k : Nat} (hk : k < ds.length) :
    (ds.flatMap mcBit).getD (2 * k) false = !ds.getD k false ∧
      (ds.flatMap mcBit).getD (2 * k + 1) false = ds.getD k false := by
  induction ds generalizing k with
  | nil => simp at hk
  | cons d ds ih =>
    cases k with
    | zero => exact ⟨rfl, rfl⟩
    | succ k => exact ih (Nat.lt_of_succ_lt_succ hk)

/-- From `pos` to its end the row holds the image of the data bits `ds`. -/
def ImageFrom (row : Row) (pos : Nat) (ds : List Bool) : Prop :=
  row.len = pos + 2 * ds.length ∧
    ∀ k < ds.length, row.bit (pos + 2 * k) = !ds.getD k false ∧ row.bit (pos + 2 * k + 1) = ds.getD k false

theorem imageFrom_ofBits (ds : List Bool) : ImageFrom (Row.ofBits (ds.flatMap mcBit)) 0 ds := by
  simp only [ImageFrom, Row.len_ofBits, length_flatMap_mcBit, Row.bit_ofBits, Nat.zero_add, true_and]
  exact fun k hk => getD_flatMap_mcBit hk

theorem ImageFrom.tail {row : Row} {pos : Nat} {d : Bool} {ds : List Bool} (h : ImageFrom row pos (d :: ds)) :
    ImageFrom row (pos + 2) ds := by
  obtain ⟨hlen, hbits⟩ := h
  refine ⟨by rw [hlen, List.length_cons]; omega, fun k hk => ?_⟩
  have := hbits (k + 1) (Nat.succ_lt_succ hk)
  rwa [Nat.mul_succ, Nat.add_comm (2 * k), ← Nat.add_assoc] at this

/-- The decoder takes the data bits of an image one by one until the image or the room ends. -/
theorem decodeLoop_image {row : Row} {pos : Nat} {ds : List Bool} (h : ImageFrom row pos ds)
    (room nbits : Nat) (buf : Memory) :
    (decodeLoop row room pos nbits buf).nbits = nbits + min room ds.length ∧
      (decodeLoop row room pos nbits buf).buf = Memory.packFrom buf nbits (ds.take room) := by
  induction room generalizing pos ds nbits buf with
  | zero => simp [decodeLoop_cap, Memory.packFrom]
  | succ room ih =>
    cases ds with
    | nil =>
      obtain ⟨hlen, -⟩ := h
      rw [decodeLoop_exhausted room (by rw [hlen]; exact Nat.le_succ _)]
      exact ⟨by simp, rfl⟩
    | cons d ds =>
      obtain ⟨hn, hb⟩ := ih h.tail (nbits + 1) (Memory.setBit buf nbits d)
      obtain ⟨hlen, hbits⟩ := h
      have hlt : pos + 1 < row.len := by rw [hlen, List.length_cons]; omega
      obtain ⟨h1, h0⟩ : row.bit pos = !d ∧ row.bit (pos + 1) = d := hbits 0 (Nat.succ_pos _)
      have hvalid : row.bit pos ≠ row.bit (pos + 1) := by rw [h1, h0]; exact Bool.not_ne_self d
      rw [decodeLoop_valid room hlt hvalid, h0]
      exact ⟨by rw [hn, List.length_cons]; omega, hb⟩

/-- Decoding an image counts and packs its data bits up to the capacity. -/
theorem decodeLine_mc (bytes : List Byte) (cap : Nat) :
    (decodeLine (Row.ofBits (mc bytes)) 0 cap).nbits = min (cap * 8) (8 * bytes.length) ∧
      (decodeLine (Row.ofBits (mc bytes)) 0 cap).buf =
        Memory.packFrom [] 0 ((bytes.flatMap byteBits).take (cap * 8)) := by
  obtain ⟨hnbits, hbuf⟩ := decodeLoop_image (imageFrom_ofBits (bytes.flatMap byteBits)) (cap * 8) 0 []
  exact ⟨by rwa [length_flatMap_byteBits, Nat.zero_add] at hnbits, hbuf⟩

/-- Packing the first `cap` bytes' bits lays those bytes. -/
theorem Memory.read_packFrom_byteBits (bytes : List Byte) (cap k : Nat) :
    Memory.read (Memory.packFrom [] 0 ((bytes.flatMap byteBits).take (cap * 8))) k =
      if k < cap then bytes.getD k 0#8 else 0#8 := by
  apply Memory.read_eq_of_bits
  intro j hj
  rw [Memory.bit_packFrom 0 _ _ rfl]
  have hbits := getD_flatMap_byteBits bytes k j hj
  rw [List.getD_eq_getElem?_getD] at hbits
  by_cases hk : k < cap
  · simp [List.getElem?_take_of_lt (show 8 * k + j < cap * 8 by omega), hk, hbits]
  · simp [List.getElem?_take_eq_none (show cap * 8 ≤ 8 * k + j by omega), hk]

namespace Machine

/-- Settles O21: the image's data bits are the string's bits up to the capacity, and packing them lays the bytes. -/
theorem manchesterRoundTrip : Obligations.ManchesterRoundTrip := by
  intro bytes cap
  obtain ⟨hnbits, hbuf⟩ := decodeLine_mc bytes cap
  constructor
  · intro k
    rw [hbuf, Memory.read_packFrom_byteBits]
  · rw [hnbits, bytesStarted]
    omega

/-- With room left, the pair's own meaning is all that happens (R93, R97). -/
theorem withRoom_of_room {s : State} (hl : s.cfg.legal = true) (h : s.nbits < s.cfg.cap * 8) (k : State → State) :
    withRoom s k = .next (k s) := by
  simp [withRoom, State.atCapacity, hl, h]

/-- Settles O17: with room the pair appends its bit, which writes the one byte that holds bit `nbits`. -/
theorem validPairsAppendTheirBit : Obligations.ValidPairsAppendTheirBit := by
  intro s i d hpair hl hroom hwf
  obtain ⟨b, hexec, hd⟩ : ∃ b, exec i s = withRoom s (appendBit b) ∧ d = if b then 1#8 else 0#8 := by
    obtain ⟨rfl, rfl⟩ | ⟨rfl, rfl⟩ := hpair
    · exact ⟨false, rfl, rfl⟩
    · exact ⟨true, rfl, rfl⟩
  have hbyte : s.nbits >>> 3 = s.nbits / 8 := Nat.shiftRight_eq_div_pow ..
  have hbit : s.nbits &&& 7 = s.nbits % 8 := Nat.and_two_pow_sub_one_eq_mod s.nbits 3
  refine ⟨Memory.setBit s.buf s.nbits b, hexec.trans (withRoom_of_room hl hroom _), ?_, fun a ha => ?_⟩
  · rw [hbyte, hbit, Memory.read_setBit _ _ _ hwf, if_pos rfl, hd, bitInByte]
  · rw [Memory.read_setBit _ _ _ hwf, if_neg (hbyte ▸ ha)]

end Machine
end Sys2Proof

/-! The frame validator on a short buffer: the length is checked before any byte is looked at
(43_frame_validator_extractor.md R111, R115). -/

namespace Sys2Proof
namespace Machine

theorem lt_bytesStarted_iff {nbits k : Nat} : k < bytesStarted nbits ↔ 8 * k < nbits :=
  lt_iff_lt_of_le_iff_le bytesStarted_le_iff

/-- Called in its stage, the operation is the whole stage (log entry 6). -/
theorem exec_validateExtract_of_validating {s : State} (hl : s.cfg.legal = true) (hs : s.stage = .validating) :
    exec .validateExtract s = .next (runValidate s) :=
  (guarded_of_legal hl _).trans (if_pos hs)

section ShortBuffer

variable {s : State} (h : s.started < s.cfg.minBytes)
include h

theorem withLength_of_short (hl : s.cfg.legal = true) (k : State → State) :
    withLength s k = .next (raiseDrop .truncated s) := by
  simp [withLength, hl, h]

theorem runValidate_of_short : runValidate s = raiseDrop .truncated s := by
  obtain ⟨-, hdrop⟩ | ⟨hlong, -⟩ | ⟨hlong, -⟩ := runValidate_cases s
  · exact hdrop
  · exact absurd h hlong.not_gt
  · exact absurd h hlong.not_gt

theorem validatingStep_of_short : validatingStep s = .next (raiseDrop .truncated s) := if_pos h

end ShortBuffer

/-- Settles O28: a seventh byte is started once the first six are full; the step, the gate of both frame types and the
whole stage each check the length first, and the drop they raise writes the stage and the reason only. -/
theorem shortBuffersAreTruncated : Obligations.ShortBuffersAreTruncated := by
  refine ⟨fun nbits => ?_, fun s hl hs hu hshort => ?_, fun s i hi hl hshort => ?_⟩
  · exact lt_bytesStarted_iff (k := 6)
  · exact (step_of_validating hl hs hu).trans (validatingStep_of_short (s := popInput s) hshort)
  · obtain ⟨r, x0, a, x1, b, x2, c, rfl⟩ | ⟨tag, rest, rfl⟩ | ⟨rfl, hs⟩ := hi
    · exact withLength_of_short hshort hl (emitPowers (slotView a b c s.buf))
    · exact withLength_of_short hshort hl (raiseDrop .typeMismatch)
    · rw [exec_validateExtract_of_validating hl hs, runValidate_of_short hshort]
      rfl

end Machine
end Sys2Proof

/-! The handshake and the order of the stages (44_decode_session.md R127, R133). -/

namespace Sys2Proof
namespace Machine

variable {s t : State} {x : HostInput}

/-! The sequencer's step, stage by stage. -/

theorem sequencerStep_of_seeking (hs : s.stage = .seeking) : sequencerStep x s = runningStep x s seekingStep := by
  simp [sequencerStep, hs]

theorem sequencerStep_of_decoding (hs : s.stage = .decoding) : sequencerStep x s = runningStep x s decodingStep := by
  simp [sequencerStep, hs]

theorem sequencerStep_of_validating (hs : s.stage = .validating) :
    sequencerStep x s = runningStep x s validatingStep := by
  simp [sequencerStep, hs]

theorem sequencerStep_of_not_busy (hb : s.busy = false) : sequencerStep x s = waitingStep x s := by
  obtain h | h | h := (not_busy_iff s).mp hb <;> simp [sequencerStep, h]

/-! The start and the record. -/

/-- A busy sequencer does not tell a start from no request. -/
theorem sequencerStep_start_of_busy (row : Row) (hb : s.busy = true) :
    sequencerStep (.start row) s = sequencerStep .quiet s := by
  obtain hs | hs | hs := (busy_iff s).mp hb
  · rw [sequencerStep_of_seeking hs, sequencerStep_of_seeking hs]; rfl
  · rw [sequencerStep_of_decoding hs, sequencerStep_of_decoding hs]; rfl
  · rw [sequencerStep_of_validating hs, sequencerStep_of_validating hs]; rfl

theorem acceptStart_of_not_busy {row : Row} (hb : s.busy = false) (ha : s.cfg.admitsLen row.len = true) :
    acceptStart row s = .next (startInvocation row s) := by
  simp [acceptStart, hb, ha]

/-- An accepted start, as a step: the invocation starts with the row presented. -/
theorem step_of_start {row : Row} (hl : s.cfg.legal = true) (hb : s.busy = false) (hx : s.nextInput = .start row)
    (ha : s.cfg.admitsLen row.len = true) : step s = .next (startInvocation row (popInput s)) := by
  rw [step_of_waiting hl hb, hx]
  exact acceptStart_of_not_busy hb ha

theorem record_of_not_valid (h : s.recordValid = false) : s.record = none := by
  simp [State.record, h]

theorem record_of_valid {time : String} (h : s.recordValid = true) (ht : s.time = some time) :
    s.record = some ⟨time, s.cfg.modelLabel, s.power0, s.power1, s.power2, none, none⟩ := by
  simp [State.record, h, ht]

/-- A valid record is presented in `EMIT` only, where the host's clock has been read (44_decode_session.md R131,
R134). -/
theorem StageInv.time_of_recordValid (h : StageInv s) (hv : s.recordValid = true) : ∃ time, s.time = some time := by
  have hemit : s.stage = .emit := by
    by_contra hne
    obtain ⟨hno, -⟩ := h.emitOnly hne
    exact Bool.false_ne_true (hno.symm.trans hv)
  obtain ⟨-, -, htime⟩ := h.emitOutputs hemit
  exact Option.isSome_iff_exists.mp htime

/-- Settles O33: a busy sequencer steps as without the start, a waiting one accepts it; `done` is read off the stage,
and the record off `record_valid`, whose time the invariant supplies. -/
theorem startAndDoneHandshake : Obligations.StartAndDoneHandshake := by
  refine ⟨fun s row rest hb => ?_, done_iff, fun s hinv _ => ⟨fun hv => ?_, record_of_not_valid⟩,
    fun s row hl hs hx ha => ?_⟩
  · have hseq := sequencerStep_start_of_busy (s := { s with inputs := rest }) row hb
    exact congrArg s.guarded hseq
  · obtain ⟨time, ht⟩ := hinv.stages.time_of_recordValid hv
    exact ⟨_, record_of_valid hv ht⟩
  · exact ⟨_, step_of_start hl ((not_busy_iff s).mpr hs) hx ha, rfl, rfl⟩

/-! The stage after a step. -/

theorem seekingStep_stage (hs : s.stage = .seeking) (h : seekingStep s = .next t) :
    t.stage = .seeking ∨ t.stage = .decoding ∨ t.stage = .drop := by
  obtain ⟨-, rfl⟩ | ⟨-, -, rfl⟩ | ⟨-, -, q, -, rfl⟩ := seekingStep_cases h
  · exact .inr (.inl rfl)
  · exact .inr (.inr rfl)
  · exact .inl hs

theorem decodingStep_stage (hs : s.stage = .decoding) (h : decodingStep s = .next t) :
    t.stage = .decoding ∨ t.stage = .validating := by
  obtain ⟨-, rfl⟩ | ⟨-, -, rfl⟩ | ⟨-, -, -, -, rfl⟩ | ⟨-, -, -, -, rfl⟩ := decodingStep_cases h
  · exact .inr rfl
  · exact .inr rfl
  · exact .inr rfl
  · exact .inl hs

theorem validatingStep_stage (h : validatingStep s = .next t) : t.stage = .emit ∨ t.stage = .drop := by
  obtain ⟨-, rfl⟩ | ⟨-, -, -, rfl⟩ | ⟨-, -, -, rfl⟩ := validatingStep_cases h
  · exact .inr rfl
  · exact .inr rfl
  · exact .inl rfl

/-- Reset apart, a running invocation takes the step of its stage, from a state that differs in the host's row at
most. -/
theorem runningStep_next_of_ne_reset {k : State → StepResult} (hx : x ≠ .reset) (h : runningStep x s k = .next t) :
    ∃ u, u.stage = s.stage ∧ k u = .next t := by
  obtain ⟨hr, -⟩ | ⟨-, -, hk⟩ | ⟨row, -, -, hk⟩ := runningStep_cases h
  · exact absurd hr hx
  · exact ⟨s, rfl, hk⟩
  · exact ⟨alterRow row s, rfl, hk⟩

/-- Reset and calls apart, a waiting stage is left by a start and by the adapter's entry only. -/
theorem waitingStep_stage (hx : x ≠ .reset) (hc : ∀ op, x ≠ .call op) (h : waitingStep x s = .next t) :
    t.stage = s.stage ∨ ((∃ row, x = .start row) ∧ t.stage = .seeking) ∨
      ((∃ bytes count, x = .bypass bytes count) ∧ t.stage = .validating) := by
  obtain rfl | ⟨hr, -⟩ | ⟨row, rfl, ha⟩ | ⟨bytes, count, rfl, ha⟩ | ⟨op, hop, -⟩ | ⟨row, -, rfl⟩ :=
    waitingStep_cases h
  · exact .inl rfl
  · exact absurd hr hx
  · obtain ⟨-, rfl⟩ | ⟨-, -, rfl⟩ := acceptStart_cases ha
    · exact .inl rfl
    · exact .inr (.inl ⟨⟨row, rfl⟩, rfl⟩)
  · obtain ⟨-, rfl⟩ | ⟨-, -, rfl⟩ := acceptBytes_cases ha
    · exact .inl rfl
    · exact .inr (.inr ⟨⟨bytes, count, rfl⟩, rfl⟩)
  · exact absurd hop (hc op)
  · exact .inl rfl

/-- Settles O36: each working stage's own step moves to the stages named, whatever the host asks short of reset, and a
waiting stage is left by an accepted entry. -/
theorem stagesMoveForwardOnly : Obligations.StagesMoveForwardOnly := by
  intro s t hx h
  obtain ⟨-, hseq⟩ := guarded_eq_next h
  refine ⟨fun hs => ?_, fun hs => ?_, fun hs => ?_, fun hb hc => ?_⟩
  · rw [sequencerStep_of_seeking (s := popInput s) hs] at hseq
    obtain ⟨u, hu, hk⟩ := runningStep_next_of_ne_reset hx hseq
    exact seekingStep_stage (hu.trans hs) hk
  · rw [sequencerStep_of_decoding (s := popInput s) hs] at hseq
    obtain ⟨u, hu, hk⟩ := runningStep_next_of_ne_reset hx hseq
    exact decodingStep_stage (hu.trans hs) hk
  · rw [sequencerStep_of_validating (s := popInput s) hs] at hseq
    obtain ⟨u, -, hk⟩ := runningStep_next_of_ne_reset hx hseq
    exact validatingStep_stage hk
  · rw [sequencerStep_of_not_busy (s := popInput s) hb] at hseq
    exact waitingStep_stage (s := popInput s) hx hc hseq

end Machine
end Sys2Proof

/-! `DECODE_ROW` by the functions of its three stages (44_decode_session.md R125, R126). -/

namespace Sys2Proof
namespace Machine

variable {s : State}

/-- The cursors at which the whole search of the state's row ends. -/
def State.searchEnd (s : State) : Nat × Nat := seekCursors s.row s.cfg.syncPattern s.cfg.syncLen

/-- The function of R75 reads its answer off those cursors. -/
theorem seek_eq_searchEnd (s : State) : seek s.row s.cfg.syncPattern s.cfg.syncLen =
    if s.searchEnd.2 = s.cfg.syncLen then some s.searchEnd.1 else none := rfl

/-- A search that finds nothing ends the invocation. -/
theorem runStages_of_not_found (h : seek s.row s.cfg.syncPattern s.cfg.syncLen = none) :
    runStages s = dropNoSync (setCursors s.searchEnd s) := by
  have hseek : runSeek s = dropNoSync (setCursors s.searchEnd s) := by
    rw [seek_eq_searchEnd] at h
    obtain ⟨hend, -⟩ | ⟨-, hrun⟩ := runSeek_cases s
    · rw [State.searchEnd, if_pos hend] at h; cases h
    · exact hrun
  simp [runStages, hseek]

/-- A search that finds an offset is followed by the decode from it and the verdict on what was decoded. -/
theorem runStages_of_found {o : Nat} (h : seek s.row s.cfg.syncPattern s.cfg.syncLen = some o) :
    runStages s =
      applyVerdict
        (validateFrame s.cfg (decodeLine s.row o s.cfg.cap).buf (bytesStarted (decodeLine s.row o s.cfg.cap).nbits))
        (storeDecode (decodeLine s.row o s.cfg.cap) (enterDecoding o (setCursors s.searchEnd s))) := by
  have hseek : runSeek s = enterDecoding o (setCursors s.searchEnd s) := by
    rw [seek_eq_searchEnd] at h
    obtain ⟨hend, hrun⟩ | ⟨hend, -⟩ := runSeek_cases s
    · rw [State.searchEnd, if_pos hend] at h; cases h; exact hrun
    · rw [State.searchEnd, if_neg hend] at h; cases h
  simp only [runStages, hseek]
  rfl

/-- Settles O37: after the start, the search's answer says whether the decode and the verdict follow it; a drop leaves
`record_valid` and the powers at their start values, a frame presents the record. -/
theorem decodeRowRunsTheThreeStages : Obligations.DecodeRowRunsTheThreeStages := by
  intro s row hl hb ha
  refine ⟨_, exec_decodeRow hl hb ha, ?_⟩
  cases hseek : seek row s.cfg.syncPattern s.cfg.syncLen with
  | none =>
    rw [runStages_of_not_found (s := startInvocation row s) hseek]
    simp [State.record]
  | some o =>
    rw [runStages_of_found (s := startInvocation row s) hseek]
    simp only [startInvocation_cfg, startInvocation_row]
    cases validateFrame s.cfg (decodeLine row o s.cfg.cap).buf (bytesStarted (decodeLine row o s.cfg.cap).nbits) with
    | reject reason => simp [applyVerdict, State.record]
    | frame p0 p1 p2 => simp [applyVerdict, State.record]

end Machine
end Sys2Proof

/-! The waiting stages left alone, and the drop as the block's only exception (60_exceptions.md R145, R146, R156). -/

namespace Sys2Proof
namespace Machine

variable {s t : State}

/-- Settles O34: a waiting block does what the host asks for, and the quiet host asks for nothing. -/
theorem nothingChangesWithoutARequest : Obligations.NothingChangesWithoutARequest := by
  intro s hl hb hx
  rw [step_of_waiting hl hb, hx]
  rfl

/-- Byte 0 of the buffer is the top byte of the frame (30_encoding.md R55). -/
theorem frameWord_topByte (buf : Memory) : (frameWord buf).extractLsb' 56 8 = Memory.read buf 0 := by
  apply BitVec.eq_of_getLsbD_eq
  intro j hj
  rw [BitVec.getLsbD_extractLsb', frameWord, frameOfBytes_getLsbD]
  interval_cases j <;> rfl

/-- Where nothing was found, the failed search has no register to write but the drop's own. -/
theorem dropNoSync_of_not_found (h : s.found = false) : dropNoSync s = raiseDrop .noSync s := by
  rw [dropNoSync, ← h]

theorem seekingStep_of_drop (hs : s.stage = .seeking) (h : seekingStep s = .next t) (ht : t.stage = .drop) :
    t = dropNoSync s := by
  obtain ⟨-, rfl⟩ | ⟨-, -, rfl⟩ | ⟨-, -, q, -, rfl⟩ := seekingStep_cases h
  · simp at ht
  · rfl
  · simp [hs] at ht

theorem validatingStep_of_drop (h : validatingStep s = .next t) (ht : t.stage = .drop) :
    (s.started < s.cfg.minBytes ∧ t = raiseDrop .truncated s) ∨
    (s.cfg.minBytes ≤ s.started ∧ Memory.read s.buf 0 ≠ s.cfg.typeMarker ∧ t = raiseDrop .typeMismatch s) := by
  obtain hshort | ⟨hlong, -, hmarker, hdrop⟩ | ⟨-, -, -, rfl⟩ := validatingStep_cases h
  · exact .inl hshort
  · exact .inr ⟨hlong, frameWord_topByte s.buf ▸ hmarker, hdrop⟩
  · simp at ht

/-- A step of a running invocation that ends in `DROP` raises one of the three drops, each by its own check, and does
nothing else (R140, R145, R146). -/
theorem step_of_drop (hinv : BlockInv s) (hb : s.busy = true) (hu : s.undisturbed) (h : step s = .next t)
    (ht : t.stage = .drop) :
    (s.stage = .seeking ∧ t = raiseDrop .noSync (popInput s)) ∨
    (s.stage = .validating ∧ s.started < s.cfg.minBytes ∧ t = raiseDrop .truncated (popInput s)) ∨
    (s.stage = .validating ∧ s.cfg.minBytes ≤ s.started ∧ Memory.read s.buf 0 ≠ s.cfg.typeMarker ∧
      t = raiseDrop .typeMismatch (popInput s)) := by
  have hl := hinv.registers.legal
  obtain hs | hs | hs := (busy_iff s).mp hb
  · obtain ⟨hfound, -⟩ := hinv.stages.seekingStart hs
    rw [step_of_seeking hl hs hu] at h
    have hdrop := seekingStep_of_drop (s := popInput s) hs h ht
    exact .inl ⟨hs, hdrop.trans (dropNoSync_of_not_found (s := popInput s) hfound)⟩
  · rw [step_of_decoding hl hs hu] at h
    obtain hstage | hstage := decodingStep_stage (s := popInput s) hs h <;> cases hstage.symm.trans ht
  · rw [step_of_validating hl hs hu] at h
    obtain hshort | hmismatch := validatingStep_of_drop h ht
    · exact .inr (.inl ⟨hs, hshort⟩)
    · exact .inr (.inr ⟨hs, hmismatch⟩)

/-- While an invocation runs, no record is presented and the powers are 0 (44_decode_session.md R134). -/
theorem StageInv.outputs_of_busy (h : StageInv s) (hb : s.busy = true) :
    s.recordValid = false ∧ s.power0 = 0#16 ∧ s.power1 = 0#16 ∧ s.power2 = 0#16 := by
  have hne : s.stage ≠ .emit := by
    obtain hs | hs | hs := (busy_iff s).mp hb <;> simp [hs]
  obtain ⟨hvalid, -, hpowers⟩ := h.emitOnly hne
  exact ⟨hvalid, hpowers⟩

/-- Settles O43: a drop keeps the outputs of a running invocation, and the check that raised it settles each reason. -/
theorem dropWritesStageAndReasonOnly : Obligations.DropWritesStageAndReasonOnly := by
  intro s t hinv hb hu h ht
  obtain ⟨hvalid, hp0, hp1, hp2⟩ := hinv.stages.outputs_of_busy hb
  obtain ⟨hs, rfl⟩ | ⟨hs, hshort, rfl⟩ | ⟨hs, hlong, hmarker, rfl⟩ := step_of_drop hinv hb hu h ht
  · exact ⟨.noSync, rfl, hvalid, hp0, hp1, hp2, record_of_not_valid hvalid, by simp [hs]⟩
  · exact ⟨.truncated, rfl, hvalid, hp0, hp1, hp2, record_of_not_valid hvalid, by simp [hs, hshort, hshort.not_ge]⟩
  · exact ⟨.typeMismatch, rfl, hvalid, hp0, hp1, hp2, record_of_not_valid hvalid,
      by simp [hs, hlong, hlong.not_gt, hmarker]⟩

end Machine
end Sys2Proof

/-! The search: what its cursors know after every comparison, that it ends, and that it answers the first occurrence
(41_sync_pattern_searcher.md R76 to R83, R86). -/

namespace Sys2Proof

variable {row : Row} {pat : List Bool} {patLen i p : Nat}

/-- The two cursors are in range and the candidate at `i - p` matches so far (R83). -/
structure MatchedCursors (row : Row) (pat : List Bool) (patLen i p : Nat) : Prop where
  started : p ≤ i
  inRow : i ≤ row.len
  inPattern : p ≤ patLen
  matched : ∀ k < p, row.bit (i - p + k) = patternBit pat k

/-- What the search knows at its cursors: the candidate matches so far, and no occurrence starts before it (R82). -/
structure SoundCursors (row : Row) (pat : List Bool) (patLen i p : Nat) : Prop
    extends MatchedCursors row pat patLen i p where
  noneBefore : ∀ t < i - p, ¬ OccursAt row pat patLen t

/-- A candidate of which nothing has been compared. -/
theorem matchedCursors_of_fresh (hi : i ≤ row.len) : MatchedCursors row pat patLen i 0 where
  started := Nat.zero_le _
  inRow := hi
  inPattern := Nat.zero_le _
  matched := fun _ hk => absurd hk (Nat.not_lt_zero _)

theorem soundCursors_start (row : Row) (pat : List Bool) (patLen : Nat) : SoundCursors row pat patLen 0 0 where
  toMatchedCursors := matchedCursors_of_fresh (Nat.zero_le _)
  noneBefore := fun _ ht => absurd ht (Nat.not_lt_zero _)

/-- A mismatch rules the candidate out (R79). -/
theorem SoundCursors.not_occursAt_of_mismatch (h : SoundCursors row pat patLen i p) (hp : p < patLen)
    (hm : row.bit i ≠ patternBit pat p) : ¬ OccursAt row pat patLen (i - p) := by
  rintro ⟨-, hbits⟩
  have hbit := hbits p hp
  rw [Nat.sub_add_cancel h.started] at hbit
  exact hm hbit

section Comparison

variable (hi : i < row.len) (hp : p < patLen)
include hi hp

/-- A match makes the candidate one bit longer (R78). -/
theorem MatchedCursors.afterMatch (h : MatchedCursors row pat patLen i p) (hm : row.bit i = patternBit pat p) :
    MatchedCursors row pat patLen (i + 1) (p + 1) where
  started := Nat.succ_le_succ h.started
  inRow := hi
  inPattern := hp
  matched := fun k hk => by
    rw [Nat.add_sub_add_right]
    obtain hlt | rfl := Nat.lt_succ_iff_lt_or_eq.mp hk
    · exact h.matched k hlt
    · rwa [Nat.sub_add_cancel h.started]

/-- One comparison leaves a candidate that matches so far: the same one, or the next one afresh (R78, R79). -/
theorem MatchedCursors.advance (h : MatchedCursors row pat patLen i p) :
    MatchedCursors row pat patLen (seekAdvance (row.bit i == patternBit pat p) i p).1
      (seekAdvance (row.bit i == patternBit pat p) i p).2 := by
  by_cases hm : row.bit i = patternBit pat p
  · simpa [seekAdvance, hm] using h.afterMatch hi hp hm
  · simpa [seekAdvance, hm] using matchedCursors_of_fresh (by omega)

/-- One comparison passes over no occurrence: a match keeps the candidate, a mismatch passes over that one only. -/
theorem SoundCursors.advance (h : SoundCursors row pat patLen i p) :
    SoundCursors row pat patLen (seekAdvance (row.bit i == patternBit pat p) i p).1
      (seekAdvance (row.bit i == patternBit pat p) i p).2 where
  toMatchedCursors := h.toMatchedCursors.advance hi hp
  noneBefore := fun t ht => by
    by_cases hm : row.bit i = patternBit pat p
    · simp only [seekAdvance, hm, beq_self_eq_true, if_true, Nat.add_sub_add_right] at ht
      exact h.noneBefore t ht
    · simp only [seekAdvance, beq_eq_false_iff_ne.mpr hm, Bool.false_eq_true, if_false, Nat.sub_zero] at ht
      obtain hlt | rfl := Nat.lt_succ_iff_lt_or_eq.mp ht
      · exact h.noneBefore t hlt
      · exact h.not_occursAt_of_mismatch hp hm

end Comparison

/-- A complete candidate is the first occurrence. -/
theorem SoundCursors.firstOccurrence (h : SoundCursors row pat patLen i patLen) :
    FirstOccurrence row pat patLen (i - patLen) :=
  ⟨⟨by rw [Nat.sub_add_cancel h.started]; exact h.inRow, h.matched⟩, h.noneBefore⟩

/-- A candidate cut off by the end of the row leaves no room for an occurrence. -/
theorem SoundCursors.not_occursAt_of_rowEnd (h : SoundCursors row pat patLen row.len p) (hp : p < patLen) (t : Nat) :
    ¬ OccursAt row pat patLen t := by
  by_cases ht : t < row.len - p
  · exact h.noneBefore t ht
  · rintro ⟨hroom, -⟩
    omega

/-- How many comparisons are left at most: a full pattern's worth for each candidate not yet ruled out, less those done
on this one (R86). -/
def comparisonsLeft (row : Row) (patLen i p : Nat) : Nat := (row.len - (i - p)) * patLen - p

theorem comparisonsLeft_pos (hi : i < row.len) (hp : p < patLen) : 0 < comparisonsLeft row patLen i p := by
  have := Nat.le_mul_of_pos_left patLen (show 0 < row.len - (i - p) by omega)
  unfold comparisonsLeft
  omega

theorem comparisonsLeft_advance (isMatch : Bool) (hpi : p ≤ i) (hi : i < row.len) (hp : p < patLen) :
    comparisonsLeft row patLen (seekAdvance isMatch i p).1 (seekAdvance isMatch i p).2 <
      comparisonsLeft row patLen i p := by
  have hpos := comparisonsLeft_pos hi hp
  unfold comparisonsLeft at hpos ⊢
  cases isMatch with
  | true =>
    simp only [seekAdvance, if_true, Nat.add_sub_add_right]
    omega
  | false =>
    obtain ⟨k, hk⟩ : ∃ k, row.len - (i - p) = k + 1 := ⟨row.len - (i - p) - 1, by omega⟩
    simp only [seekAdvance, Bool.false_eq_true, if_false, Nat.sub_zero, show row.len - (i - p + 1) = k by omega, hk,
      Nat.succ_mul]
    omega

theorem comparisonsLeft_le (row : Row) (patLen i p : Nat) : comparisonsLeft row patLen i p ≤ row.len * patLen :=
  (Nat.sub_le _ _).trans (Nat.mul_le_mul_right _ (Nat.sub_le _ _))

theorem seekLoop_advance (fuel : Nat) (hi : i < row.len) (hp : p < patLen) :
    seekLoop row pat patLen (fuel + 1) i p =
      seekLoop row pat patLen fuel (seekAdvance (row.bit i == patternBit pat p) i p).1
        (seekAdvance (row.bit i == patternBit pat p) i p).2 :=
  if_pos ⟨hi, hp⟩

/-- What every comparison in range keeps, the loop keeps. -/
theorem seekLoop_keeps {P : Nat → Nat → Prop} (fuel : Nat)
    (hkeep : ∀ {i p}, i < row.len → p < patLen → P i p →
      P (seekAdvance (row.bit i == patternBit pat p) i p).1 (seekAdvance (row.bit i == patternBit pat p) i p).2)
    (h : P i p) : P (seekLoop row pat patLen fuel i p).1 (seekLoop row pat patLen fuel i p).2 := by
  induction fuel generalizing i p with
  | zero => exact h
  | succ fuel ih =>
    by_cases hin : i < row.len ∧ p < patLen
    · obtain ⟨hi, hp⟩ := hin
      rw [seekLoop_advance fuel hi hp]
      exact ih (hkeep hi hp h)
    · rw [seekLoop_exit _ hin]
      exact h

/-- With fuel for the comparisons left, the loop runs until one of its cursors is at its end (R77). -/
theorem seekLoop_ends {fuel : Nat} (h : MatchedCursors row pat patLen i p)
    (hfuel : comparisonsLeft row patLen i p ≤ fuel) :
    ¬ ((seekLoop row pat patLen fuel i p).1 < row.len ∧ (seekLoop row pat patLen fuel i p).2 < patLen) := by
  induction fuel generalizing i p with
  | zero =>
    rintro ⟨hi, hp⟩
    exact absurd (comparisonsLeft_pos hi hp) hfuel.not_gt
  | succ fuel ih =>
    by_cases hin : i < row.len ∧ p < patLen
    · obtain ⟨hi, hp⟩ := hin
      have hless := comparisonsLeft_advance (row.bit i == patternBit pat p) h.started hi hp
      rw [seekLoop_advance fuel hi hp]
      exact ih (h.advance hi hp) (by omega)
    · rwa [seekLoop_exit _ hin]

/-- A loop with enough fuel ends with a complete match, or at the end of the row without one. -/
theorem seekLoop_result {fuel : Nat} (h : MatchedCursors row pat patLen i p)
    (hfuel : comparisonsLeft row patLen i p ≤ fuel) :
    (seekLoop row pat patLen fuel i p).2 = patLen ∨
      ((seekLoop row pat patLen fuel i p).2 < patLen ∧ (seekLoop row pat patLen fuel i p).1 = row.len) := by
  have hends := seekLoop_ends h hfuel
  obtain ⟨-, hinRow, hinPattern, -⟩ := seekLoop_keeps fuel MatchedCursors.advance h
  omega

theorem seekCursors_sound (row : Row) (pat : List Bool) (patLen : Nat) :
    SoundCursors row pat patLen (seekCursors row pat patLen).1 (seekCursors row pat patLen).2 :=
  seekLoop_keeps _ SoundCursors.advance (soundCursors_start row pat patLen)

/-- The search answers the end of the first occurrence with its pattern cursor complete, or it has none and stands at
the end of the row. -/
theorem seek_cases (row : Row) (pat : List Bool) (patLen : Nat) :
    (∃ s, FirstOccurrence row pat patLen s ∧ seek row pat patLen = some (s + patLen) ∧
      seekCursors row pat patLen = (s + patLen, patLen)) ∨
    ((∀ s, ¬ OccursAt row pat patLen s) ∧ seek row pat patLen = none ∧
      ∃ p, p < patLen ∧ seekCursors row pat patLen = (row.len, p)) := by
  have hsound := seekCursors_sound row pat patLen
  have hresult : (seekCursors row pat patLen).2 = patLen ∨
      ((seekCursors row pat patLen).2 < patLen ∧ (seekCursors row pat patLen).1 = row.len) :=
    seekLoop_result (soundCursors_start row pat patLen).toMatchedCursors (comparisonsLeft_le ..)
  unfold seek
  generalize seekCursors row pat patLen = c at hsound hresult ⊢
  obtain ⟨i, p⟩ := c
  obtain rfl | ⟨hp, rfl⟩ := hresult
  · have hend : i - p + p = i := Nat.sub_add_cancel hsound.started
    exact .inl ⟨i - p, hsound.firstOccurrence, by simp [hend], by rw [hend]⟩
  · exact .inr ⟨hsound.not_occursAt_of_rowEnd hp, if_neg (Nat.ne_of_lt hp), p, hp, rfl⟩

theorem FirstOccurrence.unique {s s' : Nat} (h : FirstOccurrence row pat patLen s)
    (h' : FirstOccurrence row pat patLen s') : s = s' := by
  obtain ⟨hocc, hfirst⟩ := h
  obtain ⟨hocc', hfirst'⟩ := h'
  obtain hlt | heq | hlt := Nat.lt_trichotomy s s'
  · exact absurd hocc (hfirst' s hlt)
  · exact heq
  · exact absurd hocc' (hfirst s' hlt)

theorem seek_of_firstOccurrence {s : Nat} (h : FirstOccurrence row pat patLen s) :
    seek row pat patLen = some (s + patLen) := by
  obtain ⟨s', hfirst, hseek, -⟩ | ⟨hnone, -⟩ := seek_cases row pat patLen
  · rw [hseek, h.unique hfirst]
  · exact absurd h.1 (hnone s)

/-- Settles O10: the loop keeps its cursors sound and ends, and a search knows the first occurrence by its end. -/
theorem seekFindsTheFirstOccurrence : Obligations.SeekFindsTheFirstOccurrence := by
  intro row pat patLen
  obtain ⟨s, hfirst, hseek, -⟩ | ⟨hnone, hseek, -⟩ := seek_cases row pat patLen
  · refine ⟨fun o => ⟨fun ho => ⟨s, ?_, hfirst⟩, ?_⟩, by simp [hseek], fun hno => absurd hfirst.1 (hno s)⟩
    · rw [hseek] at ho
      exact (Option.some.inj ho).symm
    · rintro ⟨s', rfl, hfirst'⟩
      exact seek_of_firstOccurrence hfirst'
  · refine ⟨fun o => ⟨fun ho => by simp [hseek] at ho, ?_⟩, fun _ => hnone, fun _ => hseek⟩
    rintro ⟨s', -, hocc, -⟩
    exact absurd hocc (hnone s')

namespace Machine

variable {s : State}

/-! One step of the search, and `SEEK`. -/

theorem seekingStep_of_rowEnd (hp : s.p ≠ s.cfg.syncLen) (hi : s.row.len ≤ s.i) :
    seekingStep s = .next (dropNoSync s) := by
  simp [seekingStep, hp, hi]

theorem seekingStep_of_inRange (hl : s.cfg.legal = true) (hp : s.p < s.cfg.syncLen) (hi : s.i < s.row.len) :
    seekingStep s =
      .next (setCursors (seekAdvance (s.row.bit s.i == patternBit s.cfg.syncPattern s.p) s.i s.p) s) := by
  simp [seekingStep, hp.ne, hi.not_ge, Row.bitAt_eq_some hi, patRead_of_legal hl hp]

/-- A `SEEKING` step as a whole (R88). -/
theorem seekingStep_eq (hl : s.cfg.legal = true) (hp : s.p ≤ s.cfg.syncLen) :
    seekingStep s = .next (
      if s.p = s.cfg.syncLen then enterDecoding s.i s
      else if s.row.len ≤ s.i then dropNoSync s
      else setCursors (seekAdvance (s.row.bit s.i == patternBit s.cfg.syncPattern s.p) s.i s.p) s) := by
  by_cases hend : s.p = s.cfg.syncLen
  · rw [if_pos hend, seekingStep_of_complete hend]
  · by_cases hi : s.row.len ≤ s.i
    · rw [if_neg hend, if_pos hi, seekingStep_of_rowEnd hend hi]
    · rw [if_neg hend, if_neg hi, seekingStep_of_inRange hl (by omega) (by omega)]

/-- Settles O9: the step of the stage, its comparison split into match and mismatch. -/
theorem seekingStepFollowsTheFourArms : Obligations.SeekingStepFollowsTheFourArms := by
  intro s hl hs hp hu
  rw [step_of_seeking hl hs hu, seekingStep_eq (s := popInput s) hl hp]
  by_cases hm : s.row.bit s.i = patternBit s.cfg.syncPattern s.p
  · simp only [popInput_p, popInput_i, popInput_row, popInput_cfg, seekAdvance, hm, beq_self_eq_true, if_true]
    rfl
  · simp only [popInput_p, popInput_i, popInput_row, popInput_cfg, seekAdvance, beq_eq_false_iff_ne.mpr hm,
      Bool.false_eq_true, if_false, hm]
    rfl

theorem exec_seek_of_seeking (hl : s.cfg.legal = true) (hs : s.stage = .seeking) :
    exec .seek s = .next (runSeek s) :=
  (guarded_of_legal hl _).trans (if_pos hs)

/-- Settles O13: the cursors with which the search ends are those of its answer. -/
theorem seekInstructionStoresItsResult : Obligations.SeekInstructionStoresItsResult := by
  intro s hl hs
  rw [exec_seek_of_seeking hl hs]
  unfold runSeek
  obtain ⟨o, -, hseek, hcursors⟩ | ⟨-, hseek, p, hp, hcursors⟩ := seek_cases s.row s.cfg.syncPattern s.cfg.syncLen
  · rw [hseek]
    simp only [hcursors, if_true]
    rfl
  · rw [hseek]
    simp only [hcursors, if_neg hp.ne]
    exact ⟨p, hp, rfl⟩

/-! The steps of the search. -/

/-- A run and one step more. -/
theorem run_then_step {u t : State} {n : Nat} (h : Host.Core.run Sys2Proof.core n s = .next u)
    (hstep : step u = .next t) :
    Host.Core.run Sys2Proof.core (n + 1) s = .next t := by
  rw [run_add n 1 h, run_succ 0 hstep, run_zero]

/-- Quiet `SEEKING` steps move the cursors as the loop does, one step per comparison. -/
theorem run_seekLoop (fuel : Nat) (hl : s.cfg.legal = true) (hs : s.stage = .seeking) (hq : s.inputs = []) :
    ∃ n ≤ fuel, Host.Core.run Sys2Proof.core n s =
      .next (setCursors (seekLoop s.row s.cfg.syncPattern s.cfg.syncLen fuel s.i s.p) s) := by
  induction fuel generalizing s with
  | zero => exact ⟨0, Nat.le_refl 0, run_zero s⟩
  | succ fuel ih =>
    by_cases hin : s.i < s.row.len ∧ s.p < s.cfg.syncLen
    · obtain ⟨hi, hp⟩ := hin
      have hstep := step_of_seeking hl hs (undisturbed_of_nil hq)
      rw [popInput_of_nil hq, seekingStep_of_inRange hl hp hi] at hstep
      obtain ⟨n, hn, hrun⟩ :=
        ih (s := setCursors (seekAdvance (s.row.bit s.i == patternBit s.cfg.syncPattern s.p) s.i s.p) s) hl hs hq
      refine ⟨n + 1, Nat.succ_le_succ hn, ?_⟩
      rw [run_succ n hstep, hrun, seekLoop_advance fuel hi hp]
      rfl
    · rw [seekLoop_exit _ hin]
      exact ⟨0, Nat.zero_le _, run_zero s⟩

/-- The way on from the cursors at which a search has ended (R80, R81, R88). -/
def finishSearch (c : Nat × Nat) (s : State) : State :=
  if c.2 = s.cfg.syncLen then enterDecoding c.1 (setCursors c s) else dropNoSync (setCursors c s)

theorem runSeek_eq_finishSearch (s : State) : runSeek s = finishSearch s.searchEnd s := rfl

/-- The state in which the search of `s` ends when it goes on from the cursors `s` has. -/
def searchOn (s : State) : State :=
  finishSearch (seekLoop s.row s.cfg.syncPattern s.cfg.syncLen (s.row.len * s.cfg.syncLen) s.i s.p) s

theorem searchOn_of_start (hi : s.i = 0) (hp : s.p = 0) : searchOn s = runSeek s := by
  rw [searchOn, hi, hp]
  rfl

/-- Once its cursors are where the loop ends, the search takes its way on in one step. -/
theorem seekingStep_of_ended {c : Nat × Nat} (h : c.2 = s.cfg.syncLen ∨ (c.2 < s.cfg.syncLen ∧ c.1 = s.row.len)) :
    seekingStep (setCursors c s) = .next (finishSearch c s) := by
  unfold finishSearch
  obtain hend | ⟨hp, hi⟩ := h
  · rw [if_pos hend]
    exact seekingStep_of_complete hend
  · rw [if_neg hp.ne]
    exact seekingStep_of_rowEnd (s := setCursors c s) hp.ne hi.ge

/-- From cursors in range quiet steps run the search to its end, within the comparisons of a whole search and one step
more (R86). -/
theorem run_search (hl : s.cfg.legal = true) (hs : s.stage = .seeking) (hq : s.inputs = [])
    (hmatched : MatchedCursors s.row s.cfg.syncPattern s.cfg.syncLen s.i s.p) :
    ∃ n ≤ s.row.len * s.cfg.syncLen + 1, Host.Core.run Sys2Proof.core n s = .next (searchOn s) := by
  obtain ⟨n, hn, hrun⟩ := run_seekLoop (s.row.len * s.cfg.syncLen) hl hs hq
  have hended := seekLoop_result hmatched (comparisonsLeft_le s.row s.cfg.syncLen s.i s.p)
  refine ⟨n + 1, Nat.succ_le_succ hn, run_then_step hrun ?_⟩
  generalize hc : seekLoop s.row s.cfg.syncPattern s.cfg.syncLen (s.row.len * s.cfg.syncLen) s.i s.p = c at hended ⊢
  rw [step_of_seeking (s := setCursors c s) hl hs (undisturbed_of_nil hq), popInput_of_nil (s := setCursors c s) hq,
    seekingStep_of_ended hended, searchOn, hc]

/-- Settles O15: from the first bits of row and pattern the steps run the whole loop, and one more step ends it. -/
theorem searchStepsRunSeek : Obligations.SearchStepsRunSeek := by
  intro s hl hs hi hp hq
  have hmatched : MatchedCursors s.row s.cfg.syncPattern s.cfg.syncLen s.i s.p := by
    rw [hi, hp]
    exact matchedCursors_of_fresh (Nat.zero_le _)
  obtain ⟨n, hn, hrun⟩ := run_search hl hs hq hmatched
  rw [searchOn_of_start hi hp] at hrun
  exact ⟨n, hn, hrun.trans (exec_seek_of_seeking hl hs).symm⟩

end Machine
end Sys2Proof

/-! The line decoder: what it has taken after every pair, why it stops (42_manchester_line_decoder.md R92 to R100,
R105), and the steps that run it (R107, R108). -/

namespace Sys2Proof

variable {row : Row} {start n pos nbits : Nat} {buf : Memory}

/-- After `n` pairs from `start` the buffer is canonical, holds the second bits of these pairs, which are valid, and no
other bit. -/
structure PairsTaken (row : Row) (start n : Nat) (buf : Memory) : Prop where
  bufWf : Memory.wf buf = true
  taken : ∀ k < n, ValidPairAt row start k ∧ Memory.bit buf k = row.bit (start + 2 * k + 1)
  unwritten : ∀ k, n ≤ k → Memory.bit buf k = false
  inCapacity : ∀ c, n ≤ c * 8 → Memory.below buf c = true

theorem pairsTaken_none (row : Row) (start : Nat) : PairsTaken row start 0 [] where
  bufWf := rfl
  taken := fun _ hk => absurd hk (Nat.not_lt_zero _)
  unwritten := fun k _ => Memory.bit_nil k
  inCapacity := fun _ _ => rfl

/-- A valid pair adds its second bit (R97). -/
theorem PairsTaken.append (h : PairsTaken row start n buf) (hv : ValidPairAt row start n) :
    PairsTaken row start (n + 1) (Memory.setBit buf n (row.bit (start + 2 * n + 1))) where
  bufWf := Memory.setBit_wf _ _ h.bufWf
  taken := fun k hk => by
    rw [Memory.bit_setBit _ _ _ h.bufWf]
    obtain hlt | rfl := Nat.lt_succ_iff_lt_or_eq.mp hk
    · simpa [hlt.ne] using h.taken k hlt
    · simpa [h.unwritten k (Nat.le_refl k)] using hv
  unwritten := fun k hk => by
    rw [Memory.bit_setBit _ _ _ h.bufWf]
    simp [h.unwritten k (by omega), show k ≠ n by omega]
  inCapacity := fun c hc => Memory.below_setBit (h.inCapacity c (by omega)) (by omega)

/-- The cursor after valid pairs is still in the row (R106). -/
theorem PairsTaken.pos_le (h : PairsTaken row start n buf) (hstart : start ≤ row.len) : start + 2 * n ≤ row.len := by
  cases n with
  | zero => exact hstart
  | succ n =>
    obtain ⟨⟨hlast, -⟩, -⟩ := h.taken n (Nat.lt_succ_self n)
    omega

/-- Why the decoder stops with room for `room` bits in all: the first of the three tests that holds (R92 to R96). -/
def StopsFor (row : Row) (room : Nat) (d : Machine.LineDecode) : Prop :=
  (d.cause = .cap ∧ d.nbits = room) ∨
  (d.cause = .exhausted ∧ d.nbits < room ∧ row.len ≤ d.pos + 1) ∨
  (d.cause = .inv ∧ d.nbits < room ∧ d.pos + 1 < row.len ∧ row.bit d.pos = row.bit (d.pos + 1))

/-- What a decode from `start` with room for `room` bits leaves. -/
structure DecodedFrom (row : Row) (start room : Nat) (d : Machine.LineDecode) : Prop where
  pairs : PairsTaken row start d.nbits d.buf
  cursor : d.pos = start + 2 * d.nbits
  stop : StopsFor row room d

theorem decodeLoop_decodedFrom (room : Nat) (h : PairsTaken row start n buf) :
    DecodedFrom row start (n + room) (decodeLoop row room (start + 2 * n) n buf) := by
  induction room generalizing n buf with
  | zero => exact ⟨h, rfl, .inl ⟨rfl, rfl⟩⟩
  | succ room ih =>
    have hroom : n < n + (room + 1) := by omega
    by_cases hin : start + 2 * n + 1 < row.len
    · by_cases hv : row.bit (start + 2 * n) = row.bit (start + 2 * n + 1)
      · rw [decodeLoop_inv room hin hv]
        exact ⟨h, rfl, .inr (.inr ⟨rfl, hroom, hin, hv⟩)⟩
      · rw [decodeLoop_valid room hin hv, ← Nat.add_assoc, Nat.add_right_comm]
        exact ih (h.append ⟨hin, hv⟩)
    · have hend : row.len ≤ start + 2 * n + 1 := by omega
      rw [decodeLoop_exhausted room hend]
      exact ⟨h, rfl, .inr (.inl ⟨rfl, hroom, hend⟩)⟩

theorem decodeLine_decodedFrom (row : Row) (start cap : Nat) :
    DecodedFrom row start (cap * 8) (decodeLine row start cap) := by
  have h := decodeLoop_decodedFrom (cap * 8) (pairsTaken_none row start)
  rwa [Nat.zero_add] at h

theorem StopsFor.nbits_le {room : Nat} {d : Machine.LineDecode} (h : StopsFor row room d) : d.nbits ≤ room := by
  obtain ⟨-, hn⟩ | ⟨-, hn, -⟩ | ⟨-, hn, -⟩ := h <;> omega

/-- The three reasons exclude each other, so each is known by its test. -/
theorem StopsFor.cause_iff {room : Nat} {d : Machine.LineDecode} (h : StopsFor row room d) :
    (d.cause = .cap ↔ d.nbits = room) ∧
    (d.cause = .exhausted ↔ d.nbits < room ∧ row.len ≤ d.pos + 1) ∧
    (d.cause = .inv ↔ d.nbits < room ∧ d.pos + 1 < row.len ∧ row.bit d.pos = row.bit (d.pos + 1)) := by
  obtain ⟨hc, hn⟩ | ⟨hc, hn, hlen⟩ | ⟨hc, hn, hlen, hbits⟩ := h
  · simp [hc, hn]
  · simp [hc, hn, hn.ne, hlen, hlen.not_gt]
  · simp [hc, hn, hn.ne, hlen, hlen.not_ge, hbits]

/-- Settles O20: the loop takes one valid pair after another until one of its tests stops it. -/
theorem decodeTakesTheLeadingValidPairs : Obligations.DecodeTakesTheLeadingValidPairs := by
  intro row start cap
  obtain ⟨hpairs, hcursor, hstop⟩ := decodeLine_decodedFrom row start cap
  exact ⟨hstop.nbits_le, hcursor, hpairs.bufWf, hpairs.taken, hpairs.unwritten, hstop.cause_iff⟩

namespace Machine

variable {s : State}

/-! One step of the decoder, and `DECODE`. -/

theorem atCapacity_iff : s.atCapacity = true ↔ s.cfg.cap * 8 ≤ s.nbits := by simp [State.atCapacity]

theorem decodingStep_of_full (h : s.cfg.cap * 8 ≤ s.nbits) : decodingStep s = .next (stopDecoding .cap s) :=
  if_pos (atCapacity_iff.mpr h)

theorem decodingStep_of_exhausted (hn : s.nbits < s.cfg.cap * 8) (h : s.row.len ≤ s.pos + 1) :
    decodingStep s = .next (stopDecoding .exhausted s) := by
  simp [decodingStep, State.atCapacity, State.exhausted, hn.not_ge, h]

/-- With room and a whole pair in the row, the step is the meaning of that pair (R95). -/
theorem decodingStep_of_pair (hn : s.nbits < s.cfg.cap * 8) (h : s.pos + 1 < s.row.len) :
    decodingStep s = exec (decodePair (s.row.bit s.pos) (s.row.bit (s.pos + 1))) s := by
  simp [decodingStep, State.atCapacity, State.exhausted, hn.not_ge, h.not_ge, fetchPair_of_room h]

/-- With room left, a pair stops the decoder if its bits are equal, and appends its second bit if they differ (R96,
R97). -/
theorem exec_decodePair_of_room (hl : s.cfg.legal = true) (hn : s.nbits < s.cfg.cap * 8) (s1 s0 : Bool) :
    exec (decodePair s1 s0) s = .next (if s1 = s0 then stopDecoding .inv s else appendBit s0 s) := by
  rw [exec_decodePair, withRoom_of_room hl hn]
  split <;> rfl

/-- A `DECODING` step as a whole (R107). -/
theorem decodingStep_eq (hl : s.cfg.legal = true) (hn : s.nbits ≤ s.cfg.cap * 8) :
    decodingStep s = .next (
      if s.nbits = s.cfg.cap * 8 then stopDecoding .cap s
      else if s.row.len ≤ s.pos + 1 then stopDecoding .exhausted s
      else if s.row.bit s.pos = s.row.bit (s.pos + 1) then stopDecoding .inv s
      else appendBit (s.row.bit (s.pos + 1)) s) := by
  by_cases hfull : s.nbits = s.cfg.cap * 8
  · rw [if_pos hfull, decodingStep_of_full hfull.ge]
  · have hroom : s.nbits < s.cfg.cap * 8 := by omega
    rw [if_neg hfull]
    by_cases hend : s.row.len ≤ s.pos + 1
    · rw [if_pos hend, decodingStep_of_exhausted hroom hend]
    · rw [if_neg hend, decodingStep_of_pair hroom (by omega), exec_decodePair_of_room hl hroom]

/-- Settles O16: the step of the stage is R107's. -/
theorem decodingStepFollowsTheFourArms : Obligations.DecodingStepFollowsTheFourArms := by
  intro s hl hs hn hu
  exact (step_of_decoding hl hs hu).trans (decodingStep_eq (s := popInput s) hl hn)

/-- Settles O55: with room and both bits in range the pair is fetched and run. -/
theorem stepRunsTheFetchedPair : Obligations.StepRunsTheFetchedPair := by
  intro s s1 s0 hl hs hu hn h1 h0
  have hlen : s.pos + 1 < s.row.len := by
    by_contra hend
    rw [Row.bitAt_eq_none (by omega)] at h0
    cases h0
  rw [Row.bitAt_eq_some (by omega)] at h1
  rw [Row.bitAt_eq_some hlen] at h0
  cases h1
  cases h0
  exact (step_of_decoding hl hs hu).trans (decodingStep_of_pair (s := popInput s) hn hlen)

/-- Settles O1: the table row by row; a pair whose bits differ appends its second bit where there is room. -/
theorem pairTableMatchesTheLineCode : Obligations.PairTableMatchesTheLineCode := by
  refine ⟨rfl, rfl, rfl, rfl, by decide, fun s s1 s0 hl hn hne => ?_⟩
  rw [exec_decodePair_of_room hl hn, if_neg hne]
  rfl

/-- Settles O18: an invalid pair with room left is a stop with its cause. -/
theorem invalidPairsStopTheDecoder : Obligations.InvalidPairsStopTheDecoder := by
  intro s i hi hl hn
  obtain rfl | rfl := hi
  · exact exec_decodePair_of_room hl hn false false
  · exact exec_decodePair_of_room hl hn true true

theorem withRoom_of_full (hl : s.cfg.legal = true) (h : s.cfg.cap * 8 ≤ s.nbits) (k : State → State) :
    withRoom s k = .next (stopDecoding .cap s) := by
  rw [withRoom, guarded_of_legal hl, if_pos (atCapacity_iff.mpr h)]

/-- Settles O19: every pair stands behind the same gate. -/
theorem capacityStopsBeforeThePair : Obligations.CapacityStopsBeforeThePair := by
  intro s i hi hl hn
  obtain rfl | rfl | rfl | rfl := hi
  · exact withRoom_of_full hl hn.ge (appendBit false)
  · exact withRoom_of_full hl hn.ge (appendBit true)
  · exact withRoom_of_full hl hn.ge (stopDecoding .inv)
  · exact withRoom_of_full hl hn.ge (stopDecoding .inv)

theorem exec_decode_of_decoding (hl : s.cfg.legal = true) (hs : s.stage = .decoding) (hf : s.found = true) :
    exec .decode s = .next (runDecode s) := by
  simp [exec, execDecode, hl, hs, hf]

/-- Settles O22: in its stage the operation is the whole stage. -/
theorem decodeInstructionStoresItsResult : Obligations.DecodeInstructionStoresItsResult :=
  fun _ hl hs hf => exec_decode_of_decoding hl hs hf

theorem exec_decode_of_not_found (hl : s.cfg.legal = true) (hf : s.found = false)
    (hs : s.stage = .decoding ∨ s.busy = false) : exec .decode s = .fault .syncEndUnreadable := by
  obtain hs | hb := hs
  · simp [exec, execDecode, hl, hs, hf]
  · have hne : s.stage ≠ .decoding := by
      obtain h | h | h := (not_busy_iff s).mp hb <;> simp [h]
    simp [exec, execDecode, hl, hne, hb, hf]

/-- Settles O23: in its stage and as a function alike the operation asks for `found` first. -/
theorem decodeWithoutAFoundSyncStops : Obligations.DecodeWithoutAFoundSyncStops :=
  fun _ hl hf hs => exec_decode_of_not_found hl hf hs

/-! The steps of the decoder. -/

/-- What a decode that goes on from the registers of `s` with room for `room` bits more leaves. -/
def State.decodeOn (s : State) (room : Nat) : LineDecode := decodeLoop s.row room s.pos s.nbits s.buf

theorem decodeOn_appendBit (room : Nat) (h : s.pos + 1 < s.row.len) (hv : s.row.bit s.pos ≠ s.row.bit (s.pos + 1)) :
    (appendBit (s.row.bit (s.pos + 1)) s).decodeOn room = s.decodeOn (room + 1) :=
  (decodeLoop_valid room h hv).symm

theorem step_of_quiet_decoding (hl : s.cfg.legal = true) (hs : s.stage = .decoding) (hq : s.inputs = []) :
    step s = decodingStep s := by
  rw [step_of_decoding hl hs (undisturbed_of_nil hq), popInput_of_nil hq]

/-- The step that stops the decoder ends its loop without a bit more. -/
theorem run_decode_stop {room : Nat} {cause : StopCause} (hstep : step s = .next (stopDecoding cause s))
    (hd : s.decodeOn room = ⟨s.pos, s.nbits, s.buf, cause⟩) :
    ∃ k ≤ room, (s.decodeOn room).nbits = s.nbits + k ∧
      Host.Core.run Sys2Proof.core (k + 1) s = .next (storeDecode (s.decodeOn room) s) := by
  rw [hd]
  exact ⟨0, Nat.zero_le _, rfl, run_then_step (run_zero s) hstep⟩

/-- Quiet `DECODING` steps run the loop: one for each bit still taken, and one that stops (R108). -/
theorem run_decodeLoop {room : Nat} (hl : s.cfg.legal = true) (hs : s.stage = .decoding) (hq : s.inputs = [])
    (hroom : s.nbits + room = s.cfg.cap * 8) :
    ∃ k ≤ room, (s.decodeOn room).nbits = s.nbits + k ∧
      Host.Core.run Sys2Proof.core (k + 1) s = .next (storeDecode (s.decodeOn room) s) := by
  induction room generalizing s with
  | zero =>
    have hstep := (step_of_quiet_decoding hl hs hq).trans (decodingStep_of_full (by omega))
    exact run_decode_stop hstep decodeLoop_cap
  | succ room ih =>
    have hn : s.nbits < s.cfg.cap * 8 := by omega
    by_cases hin : s.pos + 1 < s.row.len
    · have hstep := (step_of_quiet_decoding hl hs hq).trans
        ((decodingStep_of_pair hn hin).trans (exec_decodePair_of_room hl hn _ _))
      by_cases hv : s.row.bit s.pos = s.row.bit (s.pos + 1)
      · rw [if_pos hv] at hstep
        exact run_decode_stop hstep (decodeLoop_inv room hin hv)
      · rw [if_neg hv] at hstep
        obtain ⟨k, hle, hk, hrun⟩ := ih (s := appendBit (s.row.bit (s.pos + 1)) s) hl hs hq (by simp; omega)
        rw [decodeOn_appendBit room hin hv] at hk hrun
        refine ⟨k + 1, Nat.succ_le_succ hle, ?_, (run_succ (k + 1) hstep).trans hrun⟩
        rw [hk, appendBit_nbits]
        omega
    · have hstep := (step_of_quiet_decoding hl hs hq).trans (decodingStep_of_exhausted hn (by omega))
      exact run_decode_stop hstep (decodeLoop_exhausted room (by omega))

/-- Settles O24: from the entry the loop is the whole decode, and the bits it takes are those it counts. -/
theorem decodingStepsRunDecode : Obligations.DecodingStepsRunDecode := by
  intro s hl hs hf hpos hn hb hq
  have hd : s.decodeOn (s.cfg.cap * 8) = decodeLine s.row s.syncEnd s.cfg.cap := by
    rw [State.decodeOn, hpos, hn, hb, decodeLine]
  obtain ⟨k, hle, hk, hrun⟩ := run_decodeLoop (room := s.cfg.cap * 8) hl hs hq (by omega)
  rw [hd] at hk hrun
  obtain rfl : k = (decodeLine s.row s.syncEnd s.cfg.cap).nbits := by omega
  exact ⟨Nat.succ_le_succ hle, hrun.trans (exec_decode_of_decoding hl hs hf).symm⟩

end Machine
end Sys2Proof

/-! The encodings: a frame is its eight bytes and its fields, and decoding and encoding agree (30_encoding.md R52, R55,
R56). Fields and bytes are read off a concatenation by dropping the parts below them. -/

namespace Sys2Proof

open BitVec (extractLsb'_append_eq_of_le extractLsb'_append_eq_of_add_le extractLsb'_append_eq_left
  extractLsb'_append_eq_right extractLsb'_append_extractLsb'_eq_extractLsb' extractLsb'_eq_self)

/-- The lowest bits of a concatenation, from its whole lower part up into its upper one. -/
theorem extractLsb'_append_straddle {v w : Nat} (hi : BitVec v) (lo : BitVec w) (m : Nat) :
    (hi ++ lo).extractLsb' 0 (m + w) = hi.extractLsb' 0 m ++ lo := by
  apply BitVec.eq_of_getLsbD_eq
  intro j hj
  simp only [BitVec.getLsbD_extractLsb', BitVec.getLsbD_append, Nat.zero_add, hj, decide_true, Bool.true_and]
  split
  · rfl
  · simp [show j - w < m by omega]

/-! A frame and its bytes. -/

section FrameOfBytes

variable (b0 b1 b2 b3 b4 b5 b6 b7 : Byte)

theorem frameOfBytes_topByte : (frameOfBytes b0 b1 b2 b3 b4 b5 b6 b7).extractLsb' 56 8 = b0 := by
  unfold frameOfBytes
  repeat rw [extractLsb'_append_eq_of_le (by decide)]
  exact extractLsb'_eq_self

/-- The bytes of a frame made of bytes are these bytes. -/
theorem frameBytes_frameOfBytes :
    (List.range 8).map (frameByte (frameOfBytes b0 b1 b2 b3 b4 b5 b6 b7)) = [b0, b1, b2, b3, b4, b5, b6, b7] := by
  simp only [List.range, List.range.loop, List.map_cons, List.map_nil, List.cons.injEq, and_true]
  refine ⟨frameOfBytes_topByte .., ?_⟩
  unfold frameByte frameOfBytes
  refine ⟨?_, ?_, ?_, ?_, ?_, ?_, ?_⟩
  all_goals
    repeat rw [extractLsb'_append_eq_of_le (by decide)]
    exact extractLsb'_append_eq_right

/-- The bit on top of a power's high byte stands apart (R55). -/
theorem frameOfBytes_reservedBits :
    (frameOfBytes b0 b1 b2 b3 b4 b5 b6 b7).extractLsb' 47 1 = b2.extractLsb' 7 1 ∧
    (frameOfBytes b0 b1 b2 b3 b4 b5 b6 b7).extractLsb' 31 1 = b4.extractLsb' 7 1 ∧
    (frameOfBytes b0 b1 b2 b3 b4 b5 b6 b7).extractLsb' 15 1 = b6.extractLsb' 7 1 := by
  unfold frameOfBytes
  refine ⟨?_, ?_, ?_⟩
  all_goals
    repeat rw [extractLsb'_append_eq_of_le (by decide)]
    exact extractLsb'_append_eq_of_add_le (by decide)

/-- A power is the low seven bits of one byte and the whole next byte (R55). -/
theorem frameOfBytes_powerSlots :
    (frameOfBytes b0 b1 b2 b3 b4 b5 b6 b7).extractLsb' 32 15 = b2.extractLsb' 0 7 ++ b3 ∧
    (frameOfBytes b0 b1 b2 b3 b4 b5 b6 b7).extractLsb' 16 15 = b4.extractLsb' 0 7 ++ b5 ∧
    (frameOfBytes b0 b1 b2 b3 b4 b5 b6 b7).extractLsb' 0 15 = b6.extractLsb' 0 7 ++ b7 := by
  unfold frameOfBytes
  refine ⟨?_, ?_, ?_⟩
  all_goals
    repeat rw [extractLsb'_append_eq_of_le (by decide)]
    exact (extractLsb'_append_straddle _ _ 7).trans
      (congrArg (· ++ _) (extractLsb'_append_eq_of_add_le (by decide)))

end FrameOfBytes

/-- A frame is the concatenation of its eight bytes. -/
theorem frameOfBytes_frameByte (f : BitVec 64) :
    frameOfBytes (frameByte f 0) (frameByte f 1) (frameByte f 2) (frameByte f 3) (frameByte f 4) (frameByte f 5)
      (frameByte f 6) (frameByte f 7) = f := by
  unfold frameOfBytes frameByte
  repeat rw [extractLsb'_append_extractLsb'_eq_extractLsb' (by decide)]
  exact extractLsb'_eq_self

/-! Decoding a frame. -/

theorem decodeFrame_of_marker {marker : Byte} {f : BitVec 64} (h : f.extractLsb' 56 8 = marker) :
    decodeFrame marker f = .framePower (f.extractLsb' 48 8) (f.extractLsb' 47 1) (f.extractLsb' 32 15)
      (f.extractLsb' 31 1) (f.extractLsb' 16 15) (f.extractLsb' 15 1) (f.extractLsb' 0 15) := if_pos h

theorem decodeFrame_of_not_marker {marker : Byte} {f : BitVec 64} (h : f.extractLsb' 56 8 ≠ marker) :
    decodeFrame marker f = .frameOther (f.extractLsb' 56 8) (f.extractLsb' 0 56) := if_neg h

/-- Settles O5: byte 0 is the marker, and the fields below it lie over the other bytes. -/
theorem frameLayoutOverTheBytes : Obligations.FrameLayoutOverTheBytes := by
  intro marker b1 b2 b3 b4 b5 b6 b7
  have hbytes := frameBytes_frameOfBytes marker b1 b2 b3 b4 b5 b6 b7
  simp only [List.range, List.range.loop, List.map_cons, List.map_nil, List.cons.injEq, and_true] at hbytes
  obtain ⟨htag, hr, -⟩ := hbytes
  obtain ⟨hx0, hx1, hx2⟩ := frameOfBytes_reservedBits marker b1 b2 b3 b4 b5 b6 b7
  obtain ⟨ha, hb, hc⟩ := frameOfBytes_powerSlots marker b1 b2 b3 b4 b5 b6 b7
  rw [decodeFrame_of_marker htag, hx0, ha, hx1, hb, hx2, hc]
  exact congrArg (Instr.framePower · _ _ _ _ _ _) hr

/-- Settles O6: the frame decodes by its top byte, which is byte 0. -/
theorem typeByteAloneSelectsTheFrame : Obligations.TypeByteAloneSelectsTheFrame := by
  intro marker b0 b1 b2 b3 b4 b5 b6 b7
  have htop := frameOfBytes_topByte b0 b1 b2 b3 b4 b5 b6 b7
  refine ⟨fun h => ⟨_, _, _, _, _, _, _, decodeFrame_of_marker (htop.trans h)⟩, fun h => ?_⟩
  rw [decodeFrame_of_not_marker (by rwa [htop]), htop]
  exact ⟨_, rfl⟩

/-! Decode of encode. -/

/-- The fields of a power frame laid one after the other are the fields it decodes to. -/
theorem decodeFrame_powerFields (marker r : Byte) (x0 : BitVec 1) (a : BitVec 15) (x1 : BitVec 1) (b : BitVec 15)
    (x2 : BitVec 1) (c : BitVec 15) :
    decodeFrame marker (marker ++ r ++ x0 ++ a ++ x1 ++ b ++ x2 ++ c) = .framePower r x0 a x1 b x2 c := by
  have htag : (marker ++ r ++ x0 ++ a ++ x1 ++ b ++ x2 ++ c).extractLsb' 56 8 = marker := by
    repeat rw [extractLsb'_append_eq_of_le (by decide)]
    exact extractLsb'_eq_self
  rw [decodeFrame_of_marker htag, Instr.framePower.injEq]
  refine ⟨?_, ?_, ?_, ?_, ?_, ?_, ?_⟩
  all_goals
    repeat rw [extractLsb'_append_eq_of_le (by decide)]
    exact extractLsb'_append_eq_right

theorem decodeFrame_otherFields {marker tag : Byte} (rest : BitVec 56) (h : tag ≠ marker) :
    decodeFrame marker (tag ++ rest) = .frameOther tag rest := by
  have htag : (tag ++ rest).extractLsb' 56 8 = tag := extractLsb'_append_eq_left
  have hrest : (tag ++ rest).extractLsb' 0 56 = rest := extractLsb'_append_eq_right
  rw [decodeFrame_of_not_marker (by rwa [htag]), htag, hrest]

theorem decodeBytes_of_frame (marker : Byte) (f : BitVec 64) :
    decodeBytes marker ((List.range 8).map (frameByte f)) = .instr (decodeFrame marker f) :=
  congrArg (fun f => Decoded.instr (decodeFrame marker f)) (frameOfBytes_frameByte f)

/-- Settles O3: a pair by its table, a frame by its bytes and then by its fields; the operations are left out. -/
theorem decodeOfEncodeIsTheInstruction : Obligations.DecodeOfEncodeIsTheInstruction := by
  intro c i hwf hop
  cases i with
  | pairFall => exact ⟨_, rfl, rfl⟩
  | pairRise => exact ⟨_, rfl, rfl⟩
  | pairInv00 => exact ⟨_, rfl, rfl⟩
  | pairInv11 => exact ⟨_, rfl, rfl⟩
  | framePower r x0 a x1 b x2 c' =>
    exact ⟨_, rfl, by rw [decodeBytes_of_frame, decodeFrame_powerFields]⟩
  | frameOther tag rest =>
    exact ⟨_, rfl, by rw [decodeBytes_of_frame, decodeFrame_otherFields rest (of_decide_eq_true hwf)]⟩
  | bitAt _ => cases hop
  | seek => cases hop
  | decode => cases hop
  | validateExtract => cases hop
  | decodeRow _ => cases hop
  | validateBytes _ _ => cases hop

/-! Encode of decode. -/

/-- The fields a frame decodes to, laid one after the other, are the frame. -/
theorem encodeFrame_decodeFrame (marker : Byte) (f : BitVec 64) :
    encodeFrame marker (decodeFrame marker f) = some f := by
  by_cases h : f.extractLsb' 56 8 = marker
  · rw [decodeFrame_of_marker h, encodeFrame, Option.some.injEq, ← h]
    repeat rw [extractLsb'_append_extractLsb'_eq_extractLsb' (by decide)]
    exact extractLsb'_eq_self
  · rw [decodeFrame_of_not_marker h, encodeFrame, Option.some.injEq,
      extractLsb'_append_extractLsb'_eq_extractLsb' (by decide)]
    exact extractLsb'_eq_self

theorem encodePair_decodeFrame (marker : Byte) (f : BitVec 64) : encodePair (decodeFrame marker f) = none := by
  unfold decodeFrame
  split <;> rfl

theorem wellFormed_decodeFrame (c : Config) (f : BitVec 64) : wellFormed c (decodeFrame c.typeMarker f) = true := by
  by_cases h : f.extractLsb' 56 8 = c.typeMarker
  · rw [decodeFrame_of_marker h]
    rfl
  · rw [decodeFrame_of_not_marker h]
    exact decide_eq_true h

theorem encode_decodePair (marker : Byte) (s1 s0 : Bool) :
    encode marker (decodePair s1 s0) = some [bitByte s1 <<< 1 ||| bitByte s0] := by
  cases s1 <;> cases s0 <;> rfl

/-- A byte with nothing above its pair is made of the pair's two bits. -/
theorem bitBytes_of_pairByte {b : Byte} (h : b.extractLsb' 2 6 = 0#6) :
    bitByte (b.getLsbD 1) <<< 1 ||| bitByte (b.getLsbD 0) = b := by
  have hb : b.toNat < 4 := by
    have hshift := congrArg BitVec.toNat h
    have hlt := b.isLt
    rw [BitVec.extractLsb'_toNat, Nat.shiftRight_eq_div_pow, BitVec.toNat_ofNat] at hshift
    omega
  obtain ⟨n, rfl⟩ : ∃ n : Fin 4, b = BitVec.ofNat 8 n := ⟨⟨b.toNat, hb⟩, by simp⟩
  revert n
  decide

theorem wellFormed_decodePair (c : Config) (s1 s0 : Bool) : wellFormed c (decodePair s1 s0) = true := by
  cases s1 <;> cases s0 <;> rfl

/-- Settles O4: only one byte with nothing above the pair and eight bytes decode to an instruction, each of them its
encoding. -/
theorem encodeOfDecodeIsTheBytes : Obligations.EncodeOfDecodeIsTheBytes := by
  intro c bytes i h
  unfold decodeBytes at h
  split at h
  · split at h
    · cases h
      exact ⟨by rw [encode_decodePair, bitBytes_of_pairByte ‹_›], wellFormed_decodePair ..⟩
    · cases h
  · cases h
    refine ⟨?_, wellFormed_decodeFrame ..⟩
    simp only [encode, encodePair_decodeFrame, encodeFrame_decodeFrame, frameBytes_frameOfBytes]
  · cases h

/-- Settles O2: each word by evaluation. -/
theorem writtenOutWordsDecode : Obligations.WrittenOutWordsDecode := by
  unfold Obligations.WrittenOutWordsDecode
  decide

end Sys2Proof

/-! The validator and extractor: a `VALIDATING` step is the whole stage, whose verdict depends on the length, byte 0 and
the bytes of the power fields (43_frame_validator_extractor.md R110 to R115). -/

namespace Sys2Proof
namespace Machine

variable {s t : State}

/-! The two frame types with enough bytes. -/

theorem withLength_of_long (hl : s.cfg.legal = true) (h : s.cfg.minBytes ≤ s.started) (k : State → State) :
    withLength s k = .next (k s) := by
  simp [withLength, hl, h.not_gt]

/-- Settles O27: past the length check the frame is a drop. -/
theorem otherFramesAreDropped : Obligations.OtherFramesAreDropped :=
  fun _ _ _ hl h => withLength_of_long hl h (raiseDrop .typeMismatch)

/-- In the printed layout a slot's two bytes give the slot back as a power with bit 15 clear, whatever the bit on top
of the high byte holds (30_encoding.md R58, R59). -/
theorem powerField_slot (reserved : Byte) (a : BitVec 15) :
    powerField 0x7F#8 ((reserved &&& 0x80#8) ||| (a >>> 8).setWidth 8) (a.setWidth 8) = 0#1 ++ a := by
  apply BitVec.eq_of_getLsbD_eq
  intro j hj
  have hslot : (0#1 ++ a).getLsbD j = if j < 15 then a.getLsbD j else (0#1).getLsbD (j - 15) := BitVec.getLsbD_append
  rw [hslot]
  interval_cases j <;> simp [powerField, -BitVec.getLsbD_eq_getElem]

theorem powerOf_slotView {c : Config} (h : c.printedLayout) (a0 a1 a2 : BitVec 15) (buf : Memory) :
    powerOf c (slotView a0 a1 a2 buf) 0 = 0#1 ++ a0 ∧ powerOf c (slotView a0 a1 a2 buf) 1 = 0#1 ++ a1 ∧
      powerOf c (slotView a0 a1 a2 buf) 2 = 0#1 ++ a2 := by
  obtain ⟨hbase, hfields, hmask⟩ := h
  simp only [powerOf, hbase, hfields, hmask]
  exact ⟨powerField_slot _ a0, powerField_slot _ a1, powerField_slot _ a2⟩

/-- Settles O26: past the length check the record is emitted, and the printed layout's fields are the slots. -/
theorem powerFrameIsEmitted : Obligations.PowerFrameIsEmitted :=
  fun _ _ _ _ _ a b c hl h =>
    ⟨⟨_, _, withLength_of_long hl h (emitPowers (slotView a b c _))⟩, fun hc => powerOf_slotView hc a b c _⟩

/-! The stage. -/

theorem runValidate_of_mismatch (h : s.cfg.minBytes ≤ s.started) (h0 : Memory.read s.buf 0 ≠ s.cfg.typeMarker) :
    runValidate s = raiseDrop .typeMismatch s := by
  obtain ⟨hshort, -⟩ | ⟨-, -, hrun⟩ | ⟨-, hmarker, -⟩ := runValidate_cases s
  · exact absurd hshort h.not_gt
  · exact hrun
  · exact absurd hmarker h0

theorem runValidate_of_marker (h : s.cfg.minBytes ≤ s.started) (h0 : Memory.read s.buf 0 = s.cfg.typeMarker) :
    runValidate s = emitPowers (Memory.read s.buf) s := by
  obtain ⟨hshort, -⟩ | ⟨-, hother, -⟩ | ⟨-, -, hrun⟩ := runValidate_cases s
  · exact absurd hshort h.not_gt
  · exact absurd h0 hother
  · exact hrun

/-- With enough bytes, the frame in the buffer runs as the stage does. -/
theorem exec_fetchFrame (hl : s.cfg.legal = true) (h : s.cfg.minBytes ≤ s.started) :
    exec (fetchFrame s) s = .next (runValidate s) := by
  by_cases h0 : Memory.read s.buf 0 = s.cfg.typeMarker
  · rw [fetchFrame, decodeFrame_of_marker ((frameWord_topByte s.buf).trans h0), runValidate_of_marker h h0]
    refine (withLength_of_long hl h _).trans ?_
    rw [slotView_frameWord]
  · rw [fetchFrame, decodeFrame_of_not_marker (by rwa [frameWord_topByte]), runValidate_of_mismatch h h0]
    exact withLength_of_long hl h _

/-- A `VALIDATING` step is the whole stage. -/
theorem validatingStep_eq (hl : s.cfg.legal = true) : validatingStep s = .next (runValidate s) := by
  by_cases h : s.started < s.cfg.minBytes
  · rw [validatingStep_of_short h, runValidate_of_short h]
  · exact (if_neg h).trans (exec_fetchFrame hl (by omega))

/-- Settles O31: both are the whole stage, and an illegal configuration is refused by both. -/
theorem validatingStepIsValidateExtract : Obligations.ValidatingStepIsValidateExtract := by
  intro s hs hu
  cases hl : s.cfg.legal with
  | true =>
    rw [step_of_validating hl hs hu, validatingStep_eq (s := popInput s) hl]
    exact (exec_validateExtract_of_validating (s := popInput s) hl hs).symm
  | false =>
    exact (guarded_of_illegal hl _).trans (guarded_of_illegal (s := popInput s) hl _).symm

/-- Settles O56: the eight bytes are the frame the step fetches. -/
theorem stepRunsTheFetchedFrame : Obligations.StepRunsTheFetchedFrame := by
  intro s i hl hs hu h hi
  cases hi
  exact (step_of_validating hl hs hu).trans (if_neg h.not_gt)

/-- The two fields of the printed layout's formula, at the bytes it names. -/
theorem powerOf_printedLayout {c : Config} (h : c.printedLayout) (byteAt : Nat → Byte) :
    powerOf c byteAt 0 = powerField 0x7F#8 (byteAt 2) (byteAt 3) ∧
    powerOf c byteAt 1 = powerField 0x7F#8 (byteAt 4) (byteAt 5) ∧
    powerOf c byteAt 2 = powerField 0x7F#8 (byteAt 6) (byteAt 7) ∧ c.powerMax = 32767 := by
  obtain ⟨hbase, hfields, hmask⟩ := h
  simp [powerOf, Config.powerMax, hbase, hfields, hmask]

/-- Settles O29: the three ways of the stage, with the powers by the byte formula. -/
theorem validateExtractFollowsTheRule : Obligations.ValidateExtractFollowsTheRule := by
  intro s hl hs field power
  rw [exec_validateExtract_of_validating hl hs]
  refine ⟨fun h => ?_, fun h h0 => ?_, fun h h0 => ?_, powerOf_toNat_le s.cfg (Memory.read s.buf),
    fun h => powerOf_printedLayout h (Memory.read s.buf)⟩
  · rw [runValidate_of_short h]; rfl
  · rw [runValidate_of_mismatch h h0]; rfl
  · rw [runValidate_of_marker h h0]; exact ⟨_, _, rfl⟩

/-! What the verdict depends on. -/

/-- A power depends on its field's masked high byte and on its low byte. -/
theorem powerOf_congr {c : Config} {f g : Nat → Byte} {k : Nat}
    (h : k < c.nFields → g (c.fieldBase + 2 * k) &&& c.highMask = f (c.fieldBase + 2 * k) &&& c.highMask ∧
      g (c.fieldBase + 2 * k + 1) = f (c.fieldBase + 2 * k + 1)) : powerOf c g k = powerOf c f k := by
  unfold powerOf powerField
  split
  · obtain ⟨hhi, hlo⟩ := h ‹_›
    rw [hhi, hlo]
  · rfl

/-- The stage on another buffer of the same verdict differs in the buffer only. -/
theorem runValidate_withBuf {buf' : Memory}
    (h : validateFrame s.cfg buf' s.started = validateFrame s.cfg s.buf s.started) :
    runValidate { s with buf := buf' } = { runValidate s with buf := buf' } := by
  change applyVerdict (validateFrame s.cfg buf' s.started) { s with buf := buf' } =
    { applyVerdict (validateFrame s.cfg s.buf s.started) s with buf := buf' }
  rw [h]
  cases validateFrame s.cfg s.buf s.started <;> rfl

theorem validateFrame_congr {c : Config} {buf buf' : Memory} (h0 : Memory.read buf' 0 = Memory.read buf 0)
    (h : ∀ k, k < c.nFields →
      Memory.read buf' (c.fieldBase + 2 * k) &&& c.highMask = Memory.read buf (c.fieldBase + 2 * k) &&& c.highMask ∧
      Memory.read buf' (c.fieldBase + 2 * k + 1) = Memory.read buf (c.fieldBase + 2 * k + 1)) (started : Nat) :
    validateFrame c buf' started = validateFrame c buf started := by
  have hpower (k : Nat) : powerOf c (Memory.read buf') k = powerOf c (Memory.read buf) k := powerOf_congr (h k)
  simp only [validateFrame, h0, hpower]

/-- Settles O30: the verdict reads byte 0 and the fields; in the printed layout these are the bytes named. -/
theorem reservedBitsDoNotMatter : Obligations.ReservedBitsDoNotMatter := by
  intro s t buf' hs ht
  obtain ⟨hl, -⟩ := guarded_eq_next ht
  have hrun : runValidate s = t := by
    rw [exec_validateExtract_of_validating hl hs] at ht
    cases ht
    rfl
  have key (h0 : Memory.read buf' 0 = Memory.read s.buf 0)
      (h : ∀ k, k < s.cfg.nFields →
        Memory.read buf' (s.cfg.fieldBase + 2 * k) &&& s.cfg.highMask =
          Memory.read s.buf (s.cfg.fieldBase + 2 * k) &&& s.cfg.highMask ∧
        Memory.read buf' (s.cfg.fieldBase + 2 * k + 1) = Memory.read s.buf (s.cfg.fieldBase + 2 * k + 1)) :
      exec .validateExtract { s with buf := buf' } = .next { t with buf := buf' } := by
    rw [exec_validateExtract_of_validating (s := { s with buf := buf' }) hl hs,
      runValidate_withBuf (validateFrame_congr h0 h _), hrun]
  refine ⟨key, fun ⟨hbase, hfields, hmask⟩ hlow hhigh => key (hlow 0 (by decide)) fun k hk => ?_⟩
  rw [hbase, hmask]
  rw [hfields] at hk
  exact ⟨hhigh _ (by omega), hlow _ (by omega)⟩

/-! The record. -/

theorem step_of_validating_eq (hl : s.cfg.legal = true) (hs : s.stage = .validating) (hu : s.undisturbed) :
    step s = .next (runValidate (popInput s)) :=
  (step_of_validating hl hs hu).trans (validatingStep_eq (s := popInput s) hl)

/-- Only the third way of the stage ends in `EMIT`. -/
theorem runValidate_of_emit (h : (runValidate s).stage = .emit) : runValidate s = emitPowers (Memory.read s.buf) s := by
  obtain ⟨-, hrun⟩ | ⟨-, -, hrun⟩ | ⟨-, -, hrun⟩ := runValidate_cases s
  · simp [hrun] at h
  · simp [hrun] at h
  · exact hrun

/-- Settles O42: the record shows what the entry to `EMIT` wrote. -/
theorem emittedRecordHasLabelAndPowers : Obligations.EmittedRecordHasLabelAndPowers := by
  intro s t hs hu ht hemit
  obtain ⟨hl, -⟩ := guarded_eq_next ht
  rw [step_of_validating_eq hl hs hu] at ht
  cases ht
  rw [runValidate_of_emit hemit]
  exact ⟨_, rfl⟩

end Machine
end Sys2Proof

/-! The host's requests in each stage, the configuration, and what no operation writes (20_memory.md sections 3 to 5,
44_decode_session.md R126, R133, R135; 60_exceptions.md R147, R151, R156). -/

namespace Sys2Proof

/-- Bit 0 of a byte shifted down is the bit at the shift (40_bitview.md R70). -/
theorem shiftRight_and_one_iff (b : Byte) (n : Nat) : b >>> n &&& 1#8 = 1#8 ↔ b.getLsbD n = true := by
  rw [BitVec.and_one_eq_setWidth_ofBool_getLsbD, BitVec.getLsbD_ushiftRight, Nat.add_zero]
  cases b.getLsbD n <;> decide

/-- The row bit by the formula of 40_bitview.md R70. -/
theorem Row.bit_eq_decide (r : Row) (a : Nat) :
    r.bit a = decide ((Memory.read r.mem (a >>> 3) >>> (7 - (a &&& 7))) &&& 1#8 = 1#8) := by
  rw [Bool.eq_iff_iff, decide_eq_true_iff, shiftRight_and_one_iff, Nat.shiftRight_eq_div_pow,
    Nat.and_two_pow_sub_one_eq_mod a 3]
  rfl

namespace Machine

variable {s t : State}

/-! `BIT_AT`. -/

theorem exec_bitAt_of_inRange {index : Nat} (hl : s.cfg.legal = true) (h : index < s.hostRow.len) :
    exec (.bitAt index) s = .next (returnAnswer (.bit (s.hostRow.bit index)) s) := by
  simp [exec, execBitAt, hl, Row.bitAt_eq_some h]

theorem exec_bitAt_of_outOfRange {index : Nat} (hl : s.cfg.legal = true) (h : s.hostRow.len ≤ index) :
    exec (.bitAt index) s = .fault .rowOutOfRange := by
  simp [exec, execBitAt, hl, Row.bitAt_eq_none h]

/-- Settles O7: in range the answer is the row's bit. -/
theorem bitAtReturnsTheAddressedBit : Obligations.BitAtReturnsTheAddressedBit := by
  intro s index hl h
  rw [exec_bitAt_of_inRange hl h, Row.bit_eq_decide]
  rfl

/-- Settles O8: the row has no bit there. -/
theorem bitAtOutOfRangeHasNoValue : Obligations.BitAtOutOfRangeHasNoValue :=
  fun _ _ hl h => exec_bitAt_of_outOfRange hl h

/-! The stage operations out of their stage. -/

theorem stage_ne_of_not_busy (hb : s.busy = false) :
    s.stage ≠ .seeking ∧ s.stage ≠ .decoding ∧ s.stage ≠ .validating := by
  obtain h | h | h := (not_busy_iff s).mp hb <;> simp [h]

theorem exec_seek_of_not_busy (hl : s.cfg.legal = true) (hb : s.busy = false) :
    exec .seek s =
      .next (returnAnswer (.offset (seek s.hostRow s.cfg.syncPattern s.cfg.syncLen)) s) := by
  obtain ⟨hne, -, -⟩ := stage_ne_of_not_busy hb
  simp [exec, execSeek, hl, hb, hne]

theorem exec_decode_of_not_busy (hl : s.cfg.legal = true) (hb : s.busy = false) (hf : s.found = true) :
    exec .decode s =
      .next (returnAnswer (.buffer (decodeLine s.hostRow s.syncEnd s.cfg.cap).buf
        (bytesStarted (decodeLine s.hostRow s.syncEnd s.cfg.cap).nbits)) s) := by
  obtain ⟨-, hne, -⟩ := stage_ne_of_not_busy hb
  simp [exec, execDecode, hl, hb, hne, hf]

theorem exec_validateExtract_of_not_busy (hl : s.cfg.legal = true) (hb : s.busy = false) :
    exec .validateExtract s = .next (returnAnswer (.verdict (validateFrame s.cfg s.buf s.started)) s) := by
  obtain ⟨-, -, hne⟩ := stage_ne_of_not_busy hb
  simp [exec, execValidateExtract, hl, hb, hne]

/-- Settles O14: each operation, called alone, answers its function's value. -/
theorem stageOperationsAnswerWhenNotBusy : Obligations.StageOperationsAnswerWhenNotBusy :=
  fun _ hl hb => ⟨exec_seek_of_not_busy hl hb, exec_decode_of_not_busy hl hb, exec_validateExtract_of_not_busy hl hb⟩

/-- Settles O35: each operation tests its own stage first and then whether the block is busy. -/
theorem operationsOfAnotherStageAreTurnedAway : Obligations.OperationsOfAnotherStageAreTurnedAway := by
  intro s hl hb
  refine ⟨fun hne => ?_, fun hne => ?_, fun hne => ?_⟩
  · simp [exec, execSeek, hl, hb, hne]
  · simp [exec, execDecode, hl, hb, hne]
  · simp [exec, execValidateExtract, hl, hb, hne]

/-! Starts, calls and reset. -/

/-- Settles O32: the accepted start writes every register. -/
theorem startSetsEveryRegister : Obligations.StartSetsEveryRegister :=
  fun _ _ hl hs hx ha => step_of_start hl ((not_busy_iff _).mpr hs) hx ha

theorem sequencerStep_reset (s : State) : sequencerStep .reset s = .next (resetRegisters s) := by
  unfold sequencerStep
  cases s.stage <;> rfl

/-- Settles O44: every stage takes the reset. -/
theorem resetPutsEveryRegisterBack : Obligations.ResetPutsEveryRegisterBack := by
  intro s hl hx
  rw [step, guarded_of_legal hl, hx]
  exact sequencerStep_reset (popInput s)

/-- Settles O45: the table, read off the reset state. -/
theorem resetStateIsTheResetTable : Obligations.ResetStateIsTheResetTable := by
  simp [Obligations.ResetStateIsTheResetTable, State.reset, State.record, State.done, Config.canonical, Config.legal,
    Config.indexWidthOk, Config.powerMax]

/-- Settles O57: a waiting stage runs the operation called. -/
theorem stepRunsTheCalledOperation : Obligations.StepRunsTheCalledOperation := by
  intro s op hl hb hx hop
  rw [step_of_waiting hl hb, hx]
  exact if_pos hop

/-- A running sequencer hands the host's input to the step of its stage. -/
theorem sequencerStep_of_busy (hb : s.busy = true) :
    ∃ k, ∀ x u, u.stage = s.stage → sequencerStep x u = runningStep x u k := by
  obtain hs | hs | hs := (busy_iff s).mp hb
  · exact ⟨seekingStep, fun _ _ hu => sequencerStep_of_seeking (hu.trans hs)⟩
  · exact ⟨decodingStep, fun _ _ hu => sequencerStep_of_decoding (hu.trans hs)⟩
  · exact ⟨validatingStep, fun _ _ hu => sequencerStep_of_validating (hu.trans hs)⟩

/-- A running invocation hears neither the adapter's entry nor a call. -/
theorem sequencerStep_ignored_of_busy {x : HostInput} (hb : s.busy = true)
    (hx : (∃ bytes count, x = .bypass bytes count) ∨ ∃ op, x = .call op) :
    sequencerStep x s = sequencerStep .quiet s := by
  obtain ⟨k, hk⟩ := sequencerStep_of_busy hb
  rw [hk x s rfl, hk .quiet s rfl]
  obtain ⟨bytes, count, rfl⟩ | ⟨op, rfl⟩ := hx <;> rfl

/-- Settles O58: the sequencer does not hear these requests, and both whole operations test for a running invocation
first. -/
theorem otherRequestsWhileBusyAreIgnored : Obligations.OtherRequestsWhileBusyAreIgnored := by
  refine ⟨fun s x rest hb hx => ?_, fun s row bytes count hl hb => ⟨?_, ?_⟩⟩
  · exact congrArg s.guarded (sequencerStep_ignored_of_busy (s := { s with inputs := rest }) hb hx)
  · simp [exec, execDecodeRow, hl, hb]
  · simp [exec, execValidateBytes, hl, hb]

/-! The host's writes to its row memory. -/

/-- A host write while an invocation runs is refused if it changes a lent row (20_memory.md R49). -/
theorem runningStep_changeRow_of_changed {row : Row} (hlent : s.rowLent = true) (h : ¬ SameBits row s.row)
    (k : State → StepResult) : runningStep (.changeRow row) s k = .refused .rowChangedDuringInvocation := by
  have hne : row.sameBits s.row = false := by rwa [← Bool.not_eq_true, sameBits_iff]
  simp [runningStep, hlent, hne]

theorem runningStep_changeRow_of_same {row : Row} (h : s.rowLent = false ∨ SameBits row s.row)
    (k : State → StepResult) : runningStep (.changeRow row) s k = k (alterRow row s) := by
  obtain h | h := h
  · simp [runningStep, h]
  · simp [runningStep, (sameBits_iff _ _).mpr h]

/-- Settles O47: the one test of a running step on the host's row; past it the step is the quiet one. -/
theorem changedRowIsRefused : Obligations.ChangedRowIsRefused := by
  intro s row hl hb hx
  obtain ⟨k, hk⟩ := sequencerStep_of_busy hb
  have hstep : step s = runningStep (.changeRow row) (popInput s) k := by
    rw [step, guarded_of_legal hl, hx]
    exact hk _ (popInput s) rfl
  have hquiet : step { s with inputs := .quiet :: s.inputs.tail, hostRow := row } = k (alterRow row (popInput s)) :=
    (guarded_of_legal hl _).trans (hk .quiet (alterRow row (popInput s)) rfl)
  refine ⟨fun hlent hne => ?_, fun h => ?_⟩
  · rw [hstep, runningStep_changeRow_of_changed (s := popInput s) hlent hne]
  · rw [hstep, hquiet, runningStep_changeRow_of_same (s := popInput s) h]

/-! The adapter. -/

theorem acceptBytes_of_not_busy {bytes : List Byte} {count : Nat} (hb : s.busy = false)
    (hbytes : bytes.length = s.cfg.cap) (hcount : count ≤ s.cfg.cap) :
    acceptBytes bytes count s = .next (loadBytes bytes count s) := by
  simp [acceptBytes, hb, hbytes, hcount]

theorem exec_validateBytes_of_not_busy {bytes : List Byte} {count : Nat} (hl : s.cfg.legal = true)
    (hb : s.busy = false) (hbytes : bytes.length = s.cfg.cap) (hcount : count ≤ s.cfg.cap) :
    exec (.validateBytes bytes count) s = .next (runValidate (loadBytes bytes count s)) := by
  simp [exec, execValidateBytes, hl, hb, hbytes, hcount]

theorem loadBytes_started (bytes : List Byte) (count : Nat) (s : State) :
    (loadBytes bytes count s).started = count := by
  change (8 * count + 7) / 8 = count
  omega

/-- Validation after the adapter's entry: the verdict on the host's bytes. -/
theorem runValidate_loadBytes (bytes : List Byte) (count : Nat) (s : State) :
    runValidate (loadBytes bytes count s) =
      applyVerdict (validateFrame s.cfg (Memory.ofBytes bytes) count) (loadBytes bytes count s) := by
  rw [runValidate, loadBytes_started]
  rfl

/-- Settles O41: the entry lays the bytes, the whole operation is the verdict on them, and both stand behind one
test. -/
theorem validateBytesSkipsSearchAndDecode : Obligations.ValidateBytesSkipsSearchAndDecode := by
  intro s bytes count hl hb
  refine ⟨fun hbytes hcount => ⟨fun hx => ?_, ?_⟩, fun h => ?_⟩
  · refine ⟨loadBytes bytes count (popInput s), ?_, rfl, rfl, loadBytes_started .., Memory.read_ofBytes bytes⟩
    rw [step_of_waiting hl hb, hx]
    exact acceptBytes_of_not_busy (s := popInput s) hb hbytes hcount
  · refine ⟨_, exec_validateBytes_of_not_busy hl hb hbytes hcount, ?_⟩
    rw [runValidate_loadBytes]
    cases validateFrame s.cfg (Memory.ofBytes bytes) count with
    | reject reason => exact ⟨rfl, rfl, rfl⟩
    | frame p0 p1 p2 => exact ⟨rfl, _, rfl⟩
  · simp [exec, execValidateBytes, hl, hb, h]

/-! Operations called in a waiting stage, and the ways out of it. -/

/-- An operation called while the block waits gives back an answer, unless it is one of the two that begin a run. -/
theorem exec_operation_cases {op : Instr} (hop : isOperation op = true) (hb : s.busy = false)
    (h : exec op s = .next t) :
    (∃ a, t = returnAnswer a s) ∨
    (∃ row, op = .decodeRow row ∧ s.cfg.admitsLen row.len = true ∧ t = runStages (startInvocation row s)) ∨
    (∃ bytes count, op = .validateBytes bytes count ∧ (bytes.length = s.cfg.cap ∧ count ≤ s.cfg.cap) ∧
      t = runValidate (loadBytes bytes count s)) := by
  obtain ⟨hseek, hdecode, hvalidate⟩ := stage_ne_of_not_busy hb
  cases op with
  | bitAt index =>
    obtain ⟨-, -, rfl⟩ := execBitAt_cases h
    exact .inl ⟨_, rfl⟩
  | seek =>
    obtain ⟨-, ⟨hs, -⟩ | ⟨-, hbusy, -⟩ | ⟨-, rfl⟩⟩ := execSeek_cases h
    · exact absurd hs hseek
    · simp [hb] at hbusy
    · exact .inl ⟨_, rfl⟩
  | decode =>
    obtain ⟨-, ⟨hs, -⟩ | ⟨-, hbusy, -⟩ | ⟨-, -, rfl⟩⟩ := execDecode_cases h
    · exact absurd hs hdecode
    · simp [hb] at hbusy
    · exact .inl ⟨_, rfl⟩
  | validateExtract =>
    obtain ⟨-, ⟨hs, -⟩ | ⟨-, hbusy, -⟩ | ⟨-, rfl⟩⟩ := execValidateExtract_cases h
    · exact absurd hs hvalidate
    · simp [hb] at hbusy
    · exact .inl ⟨_, rfl⟩
  | decodeRow row =>
    obtain ⟨-, ⟨hbusy, -⟩ | ⟨-, ha, rfl⟩⟩ := execDecodeRow_cases h
    · simp [hb] at hbusy
    · exact .inr (.inl ⟨row, rfl, ha, rfl⟩)
  | validateBytes bytes count =>
    obtain ⟨-, ⟨hbusy, -⟩ | ⟨-, hbytes, rfl⟩⟩ := execValidateBytes_cases h
    · simp [hb] at hbusy
    · exact .inr (.inr ⟨bytes, count, rfl, hbytes, rfl⟩)
  | pairFall => cases hop
  | pairRise => cases hop
  | pairInv00 => cases hop
  | pairInv11 => cases hop
  | framePower _ _ _ _ _ _ _ => cases hop
  | frameOther _ _ => cases hop

theorem waitingStep_call_cases {op : Instr} (hb : s.busy = false) (h : waitingStep (.call op) s = .next t) :
    t = s ∨ (∃ a, t = returnAnswer a s) ∨
    (∃ row, op = .decodeRow row ∧ s.cfg.admitsLen row.len = true ∧ t = runStages (startInvocation row s)) ∨
    (∃ bytes count, op = .validateBytes bytes count ∧ (bytes.length = s.cfg.cap ∧ count ≤ s.cfg.cap) ∧
      t = runValidate (loadBytes bytes count s)) := by
  by_cases hop : isOperation op = true
  · rw [waitingStep, if_pos hop] at h
    exact .inr (exec_operation_cases hop hb h)
  · rw [waitingStep, if_neg hop] at h
    cases h
    exact .inl rfl

/-- Settles O59: of the host's requests only a host write and an answer are left, and neither is a register's. -/
theorem onlyAStartLeavesAWaitingStage : Obligations.OnlyAStartLeavesAWaitingStage := by
  intro s t hb h hreset hstart hbypass hrow hbytes
  obtain ⟨hl, -⟩ := guarded_eq_next h
  rw [step_of_waiting hl hb] at h
  cases hx : s.nextInput with
  | quiet =>
    rw [hx] at h
    cases h
    exact ⟨rfl, nofun, fun _ => rfl⟩
  | start row => exact absurd hx (hstart row)
  | bypass bytes count => exact absurd hx (hbypass bytes count)
  | call op =>
    rw [hx] at h
    obtain rfl | ⟨a, rfl⟩ | ⟨row, rfl, -⟩ | ⟨bytes, count, rfl, -⟩ := waitingStep_call_cases (s := popInput s) hb h
    · exact ⟨rfl, nofun, fun _ => rfl⟩
    · exact ⟨rfl, nofun, fun _ => rfl⟩
    · exact absurd hx (hrow row)
    · exact absurd hx (hbytes bytes count)
  | changeRow row =>
    rw [hx] at h
    cases h
    refine ⟨rfl, fun row' hrow' => ?_, fun hne => absurd rfl (hne row)⟩
    cases hrow'
    exact ⟨rfl, rfl⟩
  | reset => exact absurd hx hreset

/-! What no operation and no step writes. -/

/-- What the block holds but does not own: the constants, the requests to come, and the two rows. -/
def State.hostSide (s : State) : Config × List HostInput × Row × Row := (s.cfg, s.inputs, s.row, s.hostRow)

theorem hostSide_eq_iff : t.hostSide = s.hostSide ↔
    t.cfg = s.cfg ∧ t.inputs = s.inputs ∧ t.row = s.row ∧ t.hostRow = s.hostRow := by
  simp [State.hostSide]

theorem runSeek_hostSide (s : State) : (runSeek s).hostSide = s.hostSide := by
  obtain ⟨-, h⟩ | ⟨-, h⟩ := runSeek_cases s <;> rw [h] <;> rfl

theorem runValidate_hostSide (s : State) : (runValidate s).hostSide = s.hostSide := by
  obtain ⟨-, h⟩ | ⟨-, -, h⟩ | ⟨-, -, h⟩ := runValidate_cases s <;> rw [h] <;> rfl

theorem runStages_hostSide (s : State) : (runStages s).hostSide = s.hostSide := by
  obtain ⟨-, h⟩ | ⟨-, h⟩ := runStages_cases s
  · rw [h, runValidate_hostSide]
    exact runSeek_hostSide s
  · rw [h, runSeek_hostSide]

theorem withRoom_hostSide {k : State → State} (hk : (k s).hostSide = s.hostSide) (h : withRoom s k = .next t) :
    t.hostSide = s.hostSide := by
  obtain ⟨-, ⟨-, rfl⟩ | ⟨-, rfl⟩⟩ := withRoom_cases h
  · rfl
  · exact hk

theorem withLength_hostSide {k : State → State} (hk : (k s).hostSide = s.hostSide) (h : withLength s k = .next t) :
    t.hostSide = s.hostSide := by
  obtain ⟨-, ⟨-, rfl⟩ | ⟨-, rfl⟩⟩ := withLength_cases h
  · rfl
  · exact hk

/-- No instruction but `DECODE_ROW` writes any of these; that one puts its own row in place. -/
theorem exec_hostSide {i : Instr} (h : exec i s = .next t) :
    t.hostSide = s.hostSide ∨ ∃ row, i = .decodeRow row ∧ t.hostSide = (startInvocation row s).hostSide := by
  cases i with
  | pairFall => exact .inl (withRoom_hostSide (k := appendBit false) rfl h)
  | pairRise => exact .inl (withRoom_hostSide (k := appendBit true) rfl h)
  | pairInv00 => exact .inl (withRoom_hostSide (k := stopDecoding .inv) rfl h)
  | pairInv11 => exact .inl (withRoom_hostSide (k := stopDecoding .inv) rfl h)
  | framePower r x0 a x1 b x2 c =>
    exact .inl (withLength_hostSide (k := emitPowers (slotView a b c s.buf)) rfl h)
  | frameOther tag rest => exact .inl (withLength_hostSide (k := raiseDrop .typeMismatch) rfl h)
  | bitAt index =>
    obtain ⟨-, -, rfl⟩ := execBitAt_cases h
    exact .inl rfl
  | seek =>
    obtain ⟨-, ⟨-, rfl⟩ | ⟨-, -, rfl⟩ | ⟨-, rfl⟩⟩ := execSeek_cases h
    · exact .inl (runSeek_hostSide s)
    · exact .inl rfl
    · exact .inl rfl
  | decode =>
    obtain ⟨-, ⟨-, -, rfl⟩ | ⟨-, -, rfl⟩ | ⟨-, -, rfl⟩⟩ := execDecode_cases h <;> exact .inl rfl
  | validateExtract =>
    obtain ⟨-, ⟨-, rfl⟩ | ⟨-, -, rfl⟩ | ⟨-, rfl⟩⟩ := execValidateExtract_cases h
    · exact .inl (runValidate_hostSide s)
    · exact .inl rfl
    · exact .inl rfl
  | decodeRow row =>
    obtain ⟨-, ⟨-, rfl⟩ | ⟨-, -, rfl⟩⟩ := execDecodeRow_cases h
    · exact .inl rfl
    · exact .inr ⟨row, rfl, runStages_hostSide _⟩
  | validateBytes bytes count =>
    obtain ⟨-, ⟨-, rfl⟩ | ⟨-, -, rfl⟩⟩ := execValidateBytes_cases h
    · exact .inl rfl
    · exact .inl (runValidate_hostSide _)

theorem seekingStep_hostSide (h : seekingStep s = .next t) : t.hostSide = s.hostSide := by
  obtain ⟨-, rfl⟩ | ⟨-, -, rfl⟩ | ⟨-, -, q, -, rfl⟩ := seekingStep_cases h <;> rfl

theorem decodingStep_hostSide (h : decodingStep s = .next t) : t.hostSide = s.hostSide := by
  obtain ⟨-, rfl⟩ | ⟨-, -, rfl⟩ | ⟨-, -, -, -, rfl⟩ | ⟨-, -, -, -, rfl⟩ := decodingStep_cases h <;> rfl

theorem validatingStep_hostSide (h : validatingStep s = .next t) : t.hostSide = s.hostSide := by
  obtain ⟨-, rfl⟩ | ⟨-, -, -, rfl⟩ | ⟨-, -, -, rfl⟩ := validatingStep_cases h <;> rfl

/-- A step of a running invocation takes the host's input, and puts in the host's row memory what the host writes
there; of a lent row that is the same row. -/
theorem step_hostSide_of_busy (hb : s.busy = true) (h : step s = .next t) :
    ((∀ row, s.nextInput ≠ .changeRow row) ∧ t.hostSide = (popInput s).hostSide) ∨
    (∃ row, s.nextInput = .changeRow row ∧ (s.rowLent = true → SameBits row s.row) ∧
      t.hostSide = (alterRow row (popInput s)).hostSide) := by
  have hrunning {k : State → StepResult} (hk : ∀ {u v : State}, k u = .next v → v.hostSide = u.hostSide)
      (hrun : runningStep s.nextInput (popInput s) k = .next t) :
      ((∀ row, s.nextInput ≠ .changeRow row) ∧ t.hostSide = (popInput s).hostSide) ∨
      (∃ row, s.nextInput = .changeRow row ∧ (s.rowLent = true → SameBits row s.row) ∧
        t.hostSide = (alterRow row (popInput s)).hostSide) := by
    obtain ⟨hx, rfl⟩ | ⟨-, hx, hstep⟩ | ⟨row, hx, hsame, hstep⟩ := runningStep_cases hrun
    · exact .inl ⟨by simp [hx], rfl⟩
    · exact .inl ⟨hx, hk hstep⟩
    · exact .inr ⟨row, hx, fun hlent => (sameBits_iff _ _).mp (hsame hlent), hk hstep⟩
  obtain ⟨-, ⟨hwait, -⟩ | ⟨-, hrun⟩ | ⟨-, hrun⟩ | ⟨-, hrun⟩⟩ := step_cases h
  · simp [hb] at hwait
  · exact hrunning seekingStep_hostSide hrun
  · exact hrunning decodingStep_hostSide hrun
  · exact hrunning validatingStep_hostSide hrun

/-- A step of a waiting block takes the host's input and leaves the constants. -/
theorem step_cfg_inputs_of_not_busy (hb : s.busy = false) (h : step s = .next t) :
    t.cfg = s.cfg ∧ t.inputs = s.inputs.tail := by
  obtain ⟨hl, -⟩ := guarded_eq_next h
  rw [step_of_waiting hl hb] at h
  obtain rfl | ⟨-, rfl⟩ | ⟨row, -, ha⟩ | ⟨bytes, count, -, ha⟩ | ⟨op, -, -, hexec⟩ | ⟨row, -, rfl⟩ :=
    waitingStep_cases h
  · exact ⟨rfl, rfl⟩
  · exact ⟨rfl, rfl⟩
  · obtain ⟨-, rfl⟩ | ⟨-, -, rfl⟩ := acceptStart_cases ha <;> exact ⟨rfl, rfl⟩
  · obtain ⟨-, rfl⟩ | ⟨-, -, rfl⟩ := acceptBytes_cases ha <;> exact ⟨rfl, rfl⟩
  · obtain hside | ⟨row, -, hside⟩ := exec_hostSide hexec
    · obtain ⟨hcfg, hinputs, -⟩ := hostSide_eq_iff.mp hside
      exact ⟨hcfg, hinputs⟩
    · obtain ⟨hcfg, hinputs, -⟩ := hostSide_eq_iff.mp hside
      exact ⟨hcfg, hinputs⟩
  · exact ⟨rfl, rfl⟩

/-- Settles O48: what an instruction and a step of each kind make of the host's side. -/
theorem constantsAndRowAreNeverWritten : Obligations.ConstantsAndRowAreNeverWritten := by
  refine ⟨fun i s t h => ?_, fun s t h => ?_⟩
  · obtain hside | ⟨row, rfl, hside⟩ := exec_hostSide h
    · obtain ⟨hcfg, hinputs, hrows⟩ := hostSide_eq_iff.mp hside
      exact ⟨hcfg, hinputs, fun _ => hrows⟩
    · obtain ⟨hcfg, hinputs, -⟩ := hostSide_eq_iff.mp hside
      exact ⟨hcfg, hinputs, fun hne => absurd rfl (hne row)⟩
  · cases hb : s.busy with
    | false =>
      obtain ⟨hcfg, hinputs⟩ := step_cfg_inputs_of_not_busy hb h
      exact ⟨hcfg, hinputs, nofun⟩
    | true =>
      obtain ⟨hx, hside⟩ | ⟨row, hx, hsame, hside⟩ := step_hostSide_of_busy hb h
      · obtain ⟨hcfg, hinputs, hrow, hhost⟩ := hostSide_eq_iff.mp hside
        exact ⟨hcfg, hinputs, fun _ => ⟨hrow, fun _ => hhost, fun row hrow' => absurd hrow' (hx row)⟩⟩
      · obtain ⟨hcfg, hinputs, hrow, hhost⟩ := hostSide_eq_iff.mp hside
        refine ⟨hcfg, hinputs, fun _ => ⟨hrow, fun hne => absurd hx (hne row), fun row' hx' => ?_⟩⟩
        cases hx.symm.trans hx'
        exact ⟨hhost, hsame⟩

/-! The configuration. -/

/-- An illegal configuration is refused whatever is asked: every meaning and the step stand behind the guard. -/
theorem refused_of_illegal (hl : s.cfg.legal = false) (i : Instr) :
    step s = .refused .illegalConfiguration ∧ exec i s = .refused .illegalConfiguration := by
  refine ⟨guarded_of_illegal hl _, ?_⟩
  cases i <;> exact guarded_of_illegal hl _

theorem indexWidthOk_iff (c : Config) : c.indexWidthOk = true ↔
    (∀ w m, c.idxW = some w → c.maxLen = some m → m + 2 ≤ 2 ^ w) ∧ (c.idxW = none ∨ c.maxLen ≠ none) := by
  unfold Config.indexWidthOk
  cases c.idxW <;> cases c.maxLen <;> simp

/-- Settles O46: a legal configuration meets every constraint of R6, the byte's range by its type. -/
theorem illegalConfigurationIsRefused : Obligations.IllegalConfigurationIsRefused := by
  intro s i hbroken
  refine refused_of_illegal (Bool.eq_false_iff.mpr fun hl => hbroken ?_) i
  obtain ⟨hsync, -, -, hfields, hmin, hmax, hwidth⟩ := (legal_iff _).mp hl
  obtain ⟨hwidth, -⟩ := (indexWidthOk_iff _).mp hwidth
  exact ⟨hsync, hfields, hmin, hmax, Nat.zero_le _, Nat.le_of_lt_succ s.cfg.typeMarker.isLt, hwidth⟩

/-- Settles O60: the three checks are constraints of a legal configuration, and R6 and these are all there are. -/
theorem modelsOwnConfigurationChecks : Obligations.ModelsOwnConfigurationChecks := by
  refine ⟨fun s i hbroken => refused_of_illegal (Bool.eq_false_iff.mpr fun hl => ?_) i,
    fun c hsync hfields hmin hmax hwidth hpattern hthree hfinite => ?_⟩
  · obtain ⟨-, hpattern, hthree, -, -, -, hwidth⟩ := (legal_iff _).mp hl
    obtain ⟨-, hfinite⟩ := (indexWidthOk_iff _).mp hwidth
    obtain h | h | ⟨hw, hm⟩ := hbroken
    · exact h hpattern
    · omega
    · exact hfinite.elim hw (fun hne => hne hm)
  · exact (legal_iff c).mpr
      ⟨hsync, hpattern, hthree, hfields, hmin, hmax, (indexWidthOk_iff c).mpr ⟨hwidth, hfinite⟩⟩

/-- Settles O54: every index is at most one beyond the row, which `MAX_LEN` keeps two below the width's range. -/
theorem indexRegistersNeverWrap : Obligations.IndexRegistersNeverWrap := by
  intro s w hinv hw
  have hreg := hinv.registers
  obtain ⟨-, -, -, -, -, -, hwidth⟩ := (legal_iff _).mp hreg.legal
  obtain ⟨hrange, hfinite⟩ := (indexWidthOk_iff _).mp hwidth
  obtain ⟨m, hm⟩ : ∃ m, s.cfg.maxLen = some m := Option.ne_none_iff_exists'.mp (hfinite.resolve_left (by simp [hw]))
  have hlen : s.row.len ≤ m := by simpa [Config.admitsLen, hm] using hreg.rowFits
  have hbound := hrange w m hw hm
  obtain ⟨-, hi, -⟩ := hreg.cursors
  have hpos := hreg.posRange
  have hsync : s.syncEnd ≤ s.row.len := by
    cases hf : s.found with
    | true => exact (hreg.syncEndRange hf).2
    | false => rw [hreg.syncEndUnset hf]; exact Nat.zero_le _
  omega

end Machine
end Sys2Proof

/-! The steps of a whole invocation: they run the three stages to the state `DECODE_ROW` answers, and every running
invocation ends (44_decode_session.md R125, 70_reset_and_hazards.md R176). The worked frame of R139. -/

namespace Sys2Proof
namespace Machine

variable {s u : State}

/-! The steps run the stages. -/

/-- A search that ends in `DECODING` has put the decoder's registers at their entry values (R88). -/
theorem runSeek_of_decoding (h : (runSeek s).stage = .decoding) :
    ∃ c, runSeek s = enterDecoding c.1 (setCursors c s) := by
  obtain ⟨-, hrun⟩ | ⟨-, hrun⟩ := runSeek_cases s
  · exact ⟨_, hrun⟩
  · simp [hrun] at h

theorem run_validating (hl : s.cfg.legal = true) (hs : s.stage = .validating) (hq : s.inputs = []) :
    Host.Core.run Sys2Proof.core 1 s = .next (runValidate s) := by
  refine run_then_step (run_zero s) ?_
  rw [step_of_validating_eq hl hs (undisturbed_of_nil hq), popInput_of_nil hq]

/-- From the entry to `DECODING` quiet steps run the decode and the validation. -/
theorem run_decode_validate (hl : s.cfg.legal = true) (hs : s.stage = .decoding) (hf : s.found = true)
    (hpos : s.pos = s.syncEnd) (hn : s.nbits = 0) (hb : s.buf = []) (hq : s.inputs = []) :
    ∃ n ≤ (s.cfg.cap * 8 + 1) + 1, Host.Core.run Sys2Proof.core n s = .next (runValidate (runDecode s)) := by
  obtain ⟨hle, hrun⟩ := decodingStepsRunDecode s hl hs hf hpos hn hb hq
  rw [exec_decode_of_decoding hl hs hf] at hrun
  exact ⟨_, Nat.succ_le_succ hle, (run_add _ 1 hrun).trans (run_validating (s := runDecode s) hl rfl hq)⟩

/-- From the start values quiet steps run the three stages. -/
theorem run_stages (hl : s.cfg.legal = true) (hs : s.stage = .seeking) (hi : s.i = 0) (hp : s.p = 0)
    (hq : s.inputs = []) :
    ∃ n ≤ (s.row.len * s.cfg.syncLen + 1) + (s.cfg.cap * 8 + 1) + 1,
      Host.Core.run Sys2Proof.core n s = .next (runStages s) := by
  obtain ⟨n, hn, hrun⟩ := searchStepsRunSeek s hl hs hi hp hq
  rw [exec_seek_of_seeking hl hs] at hrun
  obtain ⟨hdecoding, hstages⟩ | ⟨-, hstages⟩ := runStages_cases s
  · rw [hstages]
    obtain ⟨c, hseek⟩ := runSeek_of_decoding hdecoding
    rw [hseek] at hrun ⊢
    obtain ⟨k, hk, hrest⟩ :=
      run_decode_validate (s := enterDecoding c.1 (setCursors c s)) hl rfl rfl rfl rfl rfl hq
    exact ⟨n + k, by simp at hk; omega, (run_add n k hrun).trans hrest⟩
  · rw [hstages]
    exact ⟨n, by omega, hrun⟩

/-- Settles O38: one step takes the start, and the steps after it run the stages. -/
theorem stepsRunDecodeRow : Obligations.StepsRunDecodeRow := by
  intro s row hl hb ha hq
  have hx : s.nextInput = .start row := by simp [State.nextInput, hq]
  have hpop : popInput s = { s with inputs := [] } := by simp [popInput, hq]
  have hstart := step_of_start hl hb hx ha
  rw [hpop] at hstart
  obtain ⟨n, hn, hrun⟩ := run_stages (s := startInvocation row { s with inputs := [] }) hl rfl rfl rfl rfl
  rw [exec_decodeRow (s := { s with inputs := [] }) hl hb ha]
  exact ⟨n + 1, by simp at hn; omega, (run_succ n hstart).trans hrun⟩

/-! Every running invocation ends. -/

/-- Left alone, the block is done within `n` steps. -/
def State.endsWithin (s : State) (n : Nat) : Prop :=
  ∃ k ≤ n, ∃ t, Host.Core.run Sys2Proof.core k s = .next t ∧ t.done = true

theorem State.endsWithin_of_done (h : s.done = true) : s.endsWithin 0 := ⟨0, Nat.le_refl 0, s, run_zero s, h⟩

theorem State.endsWithin_of_run {k m n : Nat} (hk : k ≤ m) (hrun : Host.Core.run Sys2Proof.core k s = .next u)
    (h : u.endsWithin n) : s.endsWithin (m + n) := by
  obtain ⟨j, hj, t, ht, hdone⟩ := h
  exact ⟨k + j, Nat.add_le_add hk hj, t, (run_add k j hrun).trans ht, hdone⟩

theorem runValidate_done (s : State) : (runValidate s).done = true := by
  obtain ⟨-, h⟩ | ⟨-, -, h⟩ | ⟨-, -, h⟩ := runValidate_cases s <;> simp [h, done_iff]

theorem endsWithin_of_validating (hl : s.cfg.legal = true) (hs : s.stage = .validating) (hq : s.inputs = []) :
    s.endsWithin 1 :=
  State.endsWithin_of_run (Nat.le_refl 1) (run_validating hl hs hq) (State.endsWithin_of_done (runValidate_done s))

theorem endsWithin_of_decoding (hl : s.cfg.legal = true) (hs : s.stage = .decoding) (hq : s.inputs = [])
    (hn : s.nbits ≤ s.cfg.cap * 8) : s.endsWithin (s.cfg.cap * 8 + 1 + 1) := by
  obtain ⟨k, hk, -, hrun⟩ := run_decodeLoop (room := s.cfg.cap * 8 - s.nbits) hl hs hq (by omega)
  exact State.endsWithin_of_run (by omega) hrun
    (endsWithin_of_validating (s := storeDecode (s.decodeOn (s.cfg.cap * 8 - s.nbits)) s) hl rfl hq)

theorem endsWithin_of_seeking (hl : s.cfg.legal = true) (hs : s.stage = .seeking) (hq : s.inputs = [])
    (hmatched : MatchedCursors s.row s.cfg.syncPattern s.cfg.syncLen s.i s.p) :
    s.endsWithin (s.row.len * s.cfg.syncLen + 1 + (s.cfg.cap * 8 + 1 + 1)) := by
  obtain ⟨n, hn, hrun⟩ := run_search hl hs hq hmatched
  refine State.endsWithin_of_run hn hrun ?_
  unfold searchOn finishSearch
  split
  · exact endsWithin_of_decoding hl rfl hq (Nat.zero_le _)
  · exact ⟨0, Nat.zero_le _, _, run_zero _, rfl⟩

/-- The invariant of a search, as the cursors' own (10_state.md R24 (a), (b)). -/
theorem RegisterInv.matchedCursors (h : RegisterInv s) (hs : s.stage = .seeking) :
    MatchedCursors s.row s.cfg.syncPattern s.cfg.syncLen s.i s.p := by
  obtain ⟨hstarted, hinRow, hinPattern⟩ := h.cursors
  exact ⟨hstarted, hinRow, hinPattern, h.matched hs⟩

/-- Settles O53: each stage is left within its bound, and a later stage needs fewer steps. -/
theorem everyInvocationEnds : Obligations.EveryInvocationEnds := by
  intro s hinv hb hq
  have hreg := hinv.registers
  have hends : s.endsWithin (s.row.len * s.cfg.syncLen + 1 + (s.cfg.cap * 8 + 1 + 1)) := by
    obtain hs | hs | hs := (busy_iff s).mp hb
    · exact endsWithin_of_seeking hreg.legal hs hq (hreg.matchedCursors hs)
    · obtain ⟨k, hk, h⟩ := endsWithin_of_decoding hreg.legal hs hq hreg.nbitsBound
      exact ⟨k, by omega, h⟩
    · obtain ⟨k, hk, h⟩ := endsWithin_of_validating hreg.legal hs hq
      exact ⟨k, by omega, h⟩
  obtain ⟨k, hk, t, ht⟩ := hends
  exact ⟨k, t, by omega, ht⟩

end Machine

/-! The worked frame. -/

section NoisePatternImage

variable (noise pat : List Bool) (bytes : List Byte)

/-- The row of R139: noise, the pattern, and the line code of a byte string. -/
def noisyRow : Row := Row.ofBits (noise ++ pat ++ mc bytes)

theorem length_mc : (mc bytes).length = 16 * bytes.length := by
  rw [mc, length_flatMap_mcBit, length_flatMap_byteBits]
  omega

theorem noisyRow_len : (noisyRow noise pat bytes).len = noise.length + pat.length + 16 * bytes.length := by
  simp [noisyRow, length_mc, Nat.add_assoc]

/-- Before the line code the row is the noise and the pattern. -/
theorem noisyRow_bit_of_lt {k : Nat} (hk : k < noise.length + pat.length) :
    (noisyRow noise pat bytes).bit k = (noise ++ pat).getD k false := by
  rw [noisyRow, Row.bit_ofBits, List.getD_append _ _ _ _ (by simpa using hk)]

theorem noisyRow_bit_of_le (k : Nat) :
    (noisyRow noise pat bytes).bit (noise.length + pat.length + k) = (mc bytes).getD k false := by
  rw [noisyRow, Row.bit_ofBits, List.getD_append_right _ _ _ _ (by simp), List.length_append, Nat.add_sub_cancel_left]

/-- An occurrence that starts within the noise lies before the line code. -/
theorem occursAt_of_noisyRow {t : Nat} (ht : t ≤ noise.length)
    (h : OccursAt (noisyRow noise pat bytes) pat pat.length t) :
    OccursAt (Row.ofBits (noise ++ pat)) pat pat.length t := by
  obtain ⟨-, hbits⟩ := h
  refine ⟨by simp; omega, fun k hk => ?_⟩
  rw [← hbits k hk, noisyRow_bit_of_lt _ _ _ (by omega), Row.bit_ofBits]

theorem noisyRow_occursAt : OccursAt (noisyRow noise pat bytes) pat pat.length noise.length := by
  refine ⟨by rw [noisyRow_len]; omega, fun k hk => ?_⟩
  rw [noisyRow_bit_of_lt _ _ _ (by omega), List.getD_append_right _ _ _ _ (by omega), Nat.add_sub_cancel_left]
  rfl

/-- Without an earlier occurrence the search ends where the line code begins. -/
theorem seek_noisyRow (h : ∀ t < noise.length, ¬ OccursAt (Row.ofBits (noise ++ pat)) pat pat.length t) :
    seek (noisyRow noise pat bytes) pat pat.length = some (noise.length + pat.length) :=
  seek_of_firstOccurrence
    ⟨noisyRow_occursAt noise pat bytes, fun t ht hocc => h t ht (occursAt_of_noisyRow _ _ _ ht.le hocc)⟩

theorem imageFrom_noisyRow :
    ImageFrom (noisyRow noise pat bytes) (noise.length + pat.length) (bytes.flatMap byteBits) := by
  refine ⟨by rw [noisyRow_len, length_flatMap_byteBits]; omega, fun k hk => ?_⟩
  rw [Nat.add_assoc _ (2 * k) 1, noisyRow_bit_of_le, noisyRow_bit_of_le]
  exact getD_flatMap_mcBit hk

/-- The decode of the row from the end of the pattern, at the capacity of the byte string: its bytes, and no room
left. -/
theorem decodeLine_noisyRow :
    let d := decodeLine (noisyRow noise pat bytes) (noise.length + pat.length) bytes.length
    d.nbits = bytes.length * 8 ∧ d.cause = .cap ∧ ∀ k, Memory.read d.buf k = bytes.getD k 0#8 := by
  intro d
  obtain ⟨hnbits, hbuf⟩ := decodeLoop_image (imageFrom_noisyRow noise pat bytes) (bytes.length * 8) 0 []
  have hn : d.nbits = bytes.length * 8 := by
    rw [length_flatMap_byteBits, Nat.zero_add] at hnbits
    exact hnbits.trans (by omega)
  obtain ⟨hcap, -⟩ := (decodeLine_decodedFrom (noisyRow noise pat bytes) _ bytes.length).stop.cause_iff
  refine ⟨hn, hcap.mpr hn, fun k => ?_⟩
  change Memory.read (decodeLoop _ _ _ _ _).buf k = _
  rw [hbuf, Memory.read_packFrom_byteBits]
  split
  · rfl
  · exact (List.getD_eq_default _ _ (by omega)).symm

end NoisePatternImage

namespace Machine

/-- A buffer that reads as the marker and enough bytes is a frame with the powers of these bytes. -/
theorem validateFrame_of_bytes {c : Config} {buf : Memory} {started : Nat} {bytes : List Byte}
    (hlong : c.minBytes ≤ started) (hread : ∀ k, Memory.read buf k = bytes.getD k 0#8)
    (hmarker : bytes.getD 0 0#8 = c.typeMarker) :
    validateFrame c buf started = .frame (powerOf c (fun k => bytes.getD k 0#8) 0)
      (powerOf c (fun k => bytes.getD k 0#8) 1) (powerOf c (fun k => bytes.getD k 0#8) 2) := by
  have hbuf : Memory.read buf = fun k => bytes.getD k 0#8 := funext hread
  rw [validateFrame, if_neg hlong.not_gt, if_neg (by rw [hread, hmarker]; exact not_not.mpr rfl), hbuf]

/-- Settles O40: the search ends behind the pattern, the decode fills the buffer with the frame, and the verdict takes
its powers. -/
theorem noisePatternAndFrameEmitThePowers : Obligations.NoisePatternAndFrameEmitThePowers := by
  intro s noise b1 b2 b3 b4 b5 b6 b7 hl hcap hb hnoise bytes row power ha
  obtain ⟨-, hpat, -, -, -, hmin, -⟩ := (legal_iff _).mp hl
  rw [← hpat] at hnoise ⊢
  have hseek : seek row s.cfg.syncPattern s.cfg.syncPattern.length = some (noise.length + s.cfg.syncPattern.length) :=
    seek_noisyRow noise s.cfg.syncPattern bytes hnoise
  obtain ⟨hnbits, hcause, hread⟩ :
      let d := decodeLine row (noise.length + s.cfg.syncPattern.length) s.cfg.cap
      d.nbits = 64 ∧ d.cause = .cap ∧ ∀ k, Memory.read d.buf k = bytes.getD k 0#8 := by
    rw [hcap]
    exact decodeLine_noisyRow noise s.cfg.syncPattern bytes
  refine ⟨noisyRow_len noise s.cfg.syncPattern bytes, hseek, ?_, ?_⟩
  · obtain ⟨t, hexec, -, -, -, ht⟩ := decodeRowRunsTheThreeStages s row hl hb ha
    rw [← hpat, hseek] at ht
    obtain ⟨-, -, -, hn, hbuf, hstop, hverdict⟩ := ht
    rw [hnbits, show bytesStarted 64 = 8 by decide,
      validateFrame_of_bytes (hmin.trans hcap.le) hread rfl] at hverdict
    obtain ⟨hstage, -, time, hrecord⟩ := hverdict
    exact ⟨t, time, hexec, hstage, hn.trans hnbits, hstop.trans (congrArg some hcause), fun k => hbuf ▸ hread k,
      hrecord⟩
  · rintro hc rfl rfl rfl rfl rfl rfl
    obtain ⟨h0, h1, h2, -⟩ := powerOf_printedLayout hc (fun k => bytes.getD k 0#8)
    exact ⟨h0.trans (show powerField 0x7F#8 0x01#8 0x2C#8 = 300#16 by decide),
      h1.trans (show powerField 0x7F#8 0x00#8 0x64#8 = 100#16 by decide),
      h2.trans (show powerField 0x7F#8 0x00#8 0xFA#8 = 250#16 by decide)⟩

end Machine
end Sys2Proof

/-! The invariant of the block and of the search, kept by every step (10_state.md R24, 44_decode_session.md R134,
41_sync_pattern_searcher.md R82). Each named update of the state keeps them under the conditions its stage gives; a step
is made of these updates. -/

namespace Sys2Proof

/-! The decoder's registers. -/

/-- The decoder's cursor, count and buffer as 10_state.md R24 (d) to (g) has them, for a decode from `start` of this row
into `cap` bytes. -/
structure LineSound (row : Row) (start cap pos nbits : Nat) (buf : Memory) : Prop where
  bufWf : Memory.wf buf = true
  inCapacity : Memory.below buf cap = true
  bound : nbits ≤ cap * 8
  cursor : pos = start + 2 * nbits
  inRow : pos ≤ row.len
  unwritten : ∀ n, nbits ≤ n → Memory.bit buf n = false

variable {row : Row} {start cap pos nbits : Nat} {buf : Memory}

theorem LineSound.append (h : LineSound row start cap pos nbits buf) (hroom : nbits < cap * 8)
    (hpair : pos + 1 < row.len) (d : Bool) :
    LineSound row start cap (pos + 2) (nbits + 1) (Memory.setBit buf nbits d) where
  bufWf := Memory.setBit_wf _ _ h.bufWf
  inCapacity := Memory.below_setBit h.inCapacity hroom
  bound := hroom
  cursor := by rw [h.cursor]; omega
  inRow := hpair
  unwritten := fun n hn => by
    rw [Memory.bit_setBit _ _ _ h.bufWf]
    simp [h.unwritten n (by omega), show n ≠ nbits by omega]

theorem DecodedFrom.lineSound {d : Machine.LineDecode} (h : DecodedFrom row start (cap * 8) d)
    (hstart : start ≤ row.len) :
    LineSound row start cap d.pos d.nbits d.buf where
  bufWf := h.pairs.bufWf
  inCapacity := h.pairs.inCapacity cap h.stop.nbits_le
  bound := h.stop.nbits_le
  cursor := h.cursor
  inRow := h.cursor.le.trans (h.pairs.pos_le hstart)
  unwritten := h.pairs.unwritten

namespace Machine

variable {s t : State}

/-! The invariant of the block, one update at a time. -/

theorem nextInput_wf (h : MemoryInv s) : HostInput.wf s.nextInput = true := by
  have hwf := h.inputsWf
  unfold State.nextInput
  split
  · rfl
  · exact hwf _ (by simp [*])

theorem BlockInv.popInput (h : BlockInv s) : BlockInv (popInput s) where
  memory := { h.memory with inputsWf := fun x hx => h.memory.inputsWf x (List.mem_of_mem_tail hx) }
  registers := { h.registers with legal := h.registers.legal }
  stages := { h.stages with seekingStart := h.stages.seekingStart }

theorem BlockInv.returnAnswer (h : BlockInv s) (a : Answer) : BlockInv (returnAnswer a s) where
  memory := { h.memory with rowWf := h.memory.rowWf }
  registers := { h.registers with legal := h.registers.legal }
  stages := { h.stages with seekingStart := h.stages.seekingStart }

theorem BlockInv.alterRow {row : Row} (h : BlockInv s) (hwf : row.wf = true)
    (hsame : s.rowLent = true → SameBits row s.row) : BlockInv (alterRow row s) where
  memory := { h.memory with hostRowWf := hwf, lent := hsame }
  registers := { h.registers with legal := h.registers.legal }
  stages := { h.stages with seekingStart := h.stages.seekingStart }

/-- The registers where nothing has been searched and no record is presented. -/
theorem registerInv_of_clear (hl : s.cfg.legal = true) (hfits : s.cfg.admitsLen s.row.len = true)
    (hcursors : s.i = 0 ∧ s.p = 0) (hfound : s.found = false ∧ s.syncEnd = 0 ∧ s.pos = 0)
    (hn : s.nbits ≤ s.cfg.cap * 8) (hpowers : s.power0 = 0#16 ∧ s.power1 = 0#16 ∧ s.power2 = 0#16) : RegisterInv s := by
  obtain ⟨hi, hp⟩ := hcursors
  obtain ⟨hf, hsync, hpos⟩ := hfound
  obtain ⟨h0, h1, h2⟩ := hpowers
  exact {
    legal := hl
    rowFits := hfits
    cursors := by simp [hi, hp]
    matched := by simp [hp]
    syncEndRange := by simp [hf]
    syncEndUnset := fun _ => hsync
    nbitsBound := hn
    posRule := by simp [hf]
    posRange := by simp [hpos]
    unwrittenZero := by simp [hf]
    powersBelow := by simp [h0, h1, h2] }

theorem BlockInv.resetRegisters (h : BlockInv s) : BlockInv (resetRegisters s) where
  memory := { h.memory with lent := nofun, bufWf := rfl, bufInCapacity := rfl }
  registers := registerInv_of_clear h.registers.legal h.registers.rowFits ⟨rfl, rfl⟩ ⟨rfl, rfl, rfl⟩ (Nat.zero_le _)
    ⟨rfl, rfl, rfl⟩
  stages := by constructor <;> simp

theorem BlockInv.startInvocation {row : Row} (h : BlockInv s) (hwf : row.wf = true)
    (ha : s.cfg.admitsLen row.len = true) : BlockInv (startInvocation row s) where
  memory := { h.memory with
    rowWf := hwf, hostRowWf := hwf, lent := fun _ => ⟨rfl, fun _ _ => rfl⟩, bufWf := rfl, bufInCapacity := rfl }
  registers := registerInv_of_clear h.registers.legal ha ⟨rfl, rfl⟩ ⟨rfl, rfl, rfl⟩ (Nat.zero_le _) ⟨rfl, rfl, rfl⟩
  stages := by constructor <;> simp

theorem BlockInv.loadBytes {bytes : List Byte} {count : Nat} (h : BlockInv s) (hbytes : bytes.length = s.cfg.cap)
    (hcount : count ≤ s.cfg.cap) : BlockInv (loadBytes bytes count s) where
  memory := { h.memory with
    lent := nofun
    bufWf := Memory.ofBytes_wf bytes
    bufInCapacity := hbytes ▸ Memory.below_ofBytes bytes }
  registers := registerInv_of_clear h.registers.legal h.registers.rowFits ⟨rfl, rfl⟩ ⟨rfl, rfl, rfl⟩
    (by simp; omega) ⟨rfl, rfl, rfl⟩
  stages := by constructor <;> simp

theorem BlockInv.setCursors {c : Nat × Nat} (h : BlockInv s)
    (hc : MatchedCursors s.row s.cfg.syncPattern s.cfg.syncLen c.1 c.2) : BlockInv (setCursors c s) where
  memory := { h.memory with rowWf := h.memory.rowWf }
  registers := { h.registers with cursors := ⟨hc.started, hc.inRow, hc.inPattern⟩, matched := fun _ => hc.matched }
  stages := { h.stages with seekingStart := h.stages.seekingStart }

theorem stage_ne_of_busy (hb : s.busy = true) : s.stage ≠ .emit ∧ s.stage ≠ .drop := by
  obtain h | h | h := (busy_iff s).mp hb <;> simp [h]

/-- A drop of a running invocation (60_exceptions.md R146). -/
theorem BlockInv.raiseDrop (h : BlockInv s) (hb : s.busy = true) (reason : DropReason) :
    BlockInv (raiseDrop reason s) where
  memory := { h.memory with lent := nofun }
  registers := { h.registers with matched := nofun }
  stages := by
    obtain ⟨hne, -⟩ := stage_ne_of_busy hb
    have houtputs := h.stages.emitOnly hne
    constructor <;> simp [houtputs]

theorem BlockInv.dropNoSync (h : BlockInv s) (hs : s.stage = .seeking) : BlockInv (dropNoSync s) := by
  obtain ⟨hf, -⟩ := h.stages.seekingStart hs
  rw [dropNoSync_of_not_found hf]
  exact h.raiseDrop ((busy_iff s).mpr (.inl hs)) .noSync

/-- Other decoder registers of the same decode (R97). -/
theorem BlockInv.withDecoder {pos nbits : Nat} {buf : Memory} (h : BlockInv s) (hs : s.stage = .decoding)
    (hd : LineSound s.row s.syncEnd s.cfg.cap pos nbits buf) :
    BlockInv { s with pos := pos, nbits := nbits, buf := buf } where
  memory := { h.memory with bufWf := hd.bufWf, bufInCapacity := hd.inCapacity }
  registers := { h.registers with
    nbitsBound := hd.bound
    posRule := fun _ => hd.cursor
    posRange := hd.inRow
    unwrittenZero := fun _ => hd.unwritten }
  stages := { h.stages with seekingStart := by simp [hs] }

theorem BlockInv.lineSound (h : BlockInv s) (hs : s.stage = .decoding) :
    LineSound s.row s.syncEnd s.cfg.cap s.pos s.nbits s.buf :=
  have hf := h.stages.decodingFound hs
  ⟨h.memory.bufWf, h.memory.bufInCapacity, h.registers.nbitsBound, h.registers.posRule hf, h.registers.posRange,
    h.registers.unwrittenZero hf⟩

theorem BlockInv.enterDecoding (h : BlockInv s) (hs : s.stage = .seeking) (hp : s.p = s.cfg.syncLen) :
    BlockInv (enterDecoding s.i s) := by
  obtain ⟨hle, hi, -⟩ := h.registers.cursors
  have houtputs := h.stages.emitOnly (by simp [hs])
  have hdrop := h.stages.dropOnly (by simp [hs])
  exact {
    memory := { h.memory with
      lent := fun _ => h.memory.lent ((rowLent_iff s).mpr (.inl hs))
      bufWf := rfl
      bufInCapacity := rfl }
    registers := { h.registers with
      matched := nofun
      syncEndRange := fun _ => ⟨hp ▸ hle, hi⟩
      syncEndUnset := nofun
      nbitsBound := Nat.zero_le _
      posRule := fun _ => rfl
      posRange := hi
      unwrittenZero := fun _ n _ => Memory.bit_nil n }
    stages := by constructor <;> simp [houtputs, hdrop] }

theorem BlockInv.stopDecoding (h : BlockInv s) (hs : s.stage = .decoding) (cause : StopCause) :
    BlockInv (stopDecoding cause s) := by
  have houtputs := h.stages.emitOnly (by simp [hs])
  have hdrop := h.stages.dropOnly (by simp [hs])
  exact {
    memory := { h.memory with lent := fun _ => h.memory.lent ((rowLent_iff s).mpr (.inr (.inl hs))) }
    registers := { h.registers with matched := nofun }
    stages := by constructor <;> simp [houtputs, hdrop] }

theorem BlockInv.emitRecord {p0 p1 p2 : Power} (h : BlockInv s) (hs : s.stage = .validating)
    (hpowers : p0.toNat ≤ s.cfg.powerMax ∧ p1.toNat ≤ s.cfg.powerMax ∧ p2.toNat ≤ s.cfg.powerMax) :
    BlockInv (emitRecord p0 p1 p2 s) where
  memory := { h.memory with lent := nofun }
  registers := { h.registers with matched := nofun, powersBelow := hpowers }
  stages := by
    have hdrop := h.stages.dropOnly (by simp [hs])
    constructor <;> simp [hdrop]

/-! The invariant of the block, one stage at a time. -/

theorem BlockInv.finishSearch {c : Nat × Nat} (h : BlockInv s) (hs : s.stage = .seeking)
    (hc : MatchedCursors s.row s.cfg.syncPattern s.cfg.syncLen c.1 c.2) : BlockInv (finishSearch c s) := by
  have hset := h.setCursors hc
  unfold Machine.finishSearch
  split
  · exact hset.enterDecoding hs ‹_›
  · exact hset.dropNoSync hs

theorem BlockInv.runSeek (h : BlockInv s) (hs : s.stage = .seeking) : BlockInv (runSeek s) := by
  rw [runSeek_eq_finishSearch]
  exact h.finishSearch hs (seekCursors_sound ..).toMatchedCursors

theorem BlockInv.runDecode (h : BlockInv s) (hs : s.stage = .decoding) : BlockInv (runDecode s) := by
  obtain ⟨-, hend⟩ := h.registers.syncEndRange (h.stages.decodingFound hs)
  have hd := (decodeLine_decodedFrom s.row s.syncEnd s.cfg.cap).lineSound hend
  exact (h.withDecoder hs hd).stopDecoding hs _

theorem BlockInv.runValidate (h : BlockInv s) (hs : s.stage = .validating) : BlockInv (runValidate s) := by
  have hb : s.busy = true := (busy_iff s).mpr (.inr (.inr hs))
  obtain ⟨-, hrun⟩ | ⟨-, -, hrun⟩ | ⟨-, -, hrun⟩ := runValidate_cases s
  · rw [hrun]; exact h.raiseDrop hb _
  · rw [hrun]; exact h.raiseDrop hb _
  · rw [hrun]; exact h.emitRecord hs ⟨powerOf_toNat_le .., powerOf_toNat_le .., powerOf_toNat_le ..⟩

theorem BlockInv.runStages (h : BlockInv s) (hs : s.stage = .seeking) : BlockInv (runStages s) := by
  obtain ⟨hdecoding, hrun⟩ | ⟨-, hrun⟩ := runStages_cases s
  · rw [hrun]; exact ((h.runSeek hs).runDecode hdecoding).runValidate rfl
  · rw [hrun]; exact h.runSeek hs

theorem BlockInv.of_seekingStep (h : BlockInv s) (hs : s.stage = .seeking) (ht : seekingStep s = .next t) :
    BlockInv t := by
  have hmatched := h.registers.matchedCursors hs
  rw [seekingStep_eq h.registers.legal hmatched.inPattern] at ht
  split at ht
  · cases ht; exact h.enterDecoding hs ‹_›
  · split at ht
    · cases ht; exact h.dropNoSync hs
    · cases ht
      have := hmatched.inPattern
      exact h.setCursors (hmatched.advance (by omega) (by omega))

theorem BlockInv.of_decodingStep (h : BlockInv s) (hs : s.stage = .decoding) (ht : decodingStep s = .next t) :
    BlockInv t := by
  obtain ⟨-, rfl⟩ | ⟨-, -, rfl⟩ | ⟨-, -, -, -, rfl⟩ | ⟨hc, hpair, -, -, rfl⟩ := decodingStep_cases ht
  · exact h.stopDecoding hs _
  · exact h.stopDecoding hs _
  · exact h.stopDecoding hs _
  · have hroom : s.nbits < s.cfg.cap * 8 := by simpa [State.atCapacity] using hc
    exact h.withDecoder hs ((h.lineSound hs).append hroom hpair _)

theorem BlockInv.of_validatingStep (h : BlockInv s) (hs : s.stage = .validating) (ht : validatingStep s = .next t) :
    BlockInv t := by
  rw [validatingStep_eq h.registers.legal] at ht
  cases ht
  exact h.runValidate hs

/-! The step. -/

theorem SearchInv.popInput (h : SearchInv s) : SearchInv (popInput s) := ⟨h.noneBefore, h.firstFound⟩

theorem SearchInv.alterRow (h : SearchInv s) (row : Row) : SearchInv (alterRow row s) := ⟨h.noneBefore, h.firstFound⟩

theorem SearchInv.returnAnswer (h : SearchInv s) (a : Answer) : SearchInv (returnAnswer a s) :=
  ⟨h.noneBefore, h.firstFound⟩

/-- Reset apart, a running invocation takes the step of its stage from a state that keeps both invariants. -/
theorem BlockInv.runningStep_cases {x : HostInput} {k : State → StepResult} (h : BlockInv s)
    (hx : HostInput.wf x = true) (ht : runningStep x s k = .next t) :
    t = Machine.resetRegisters s ∨
      ∃ u, u.stage = s.stage ∧ BlockInv u ∧ (SearchInv s → SearchInv u) ∧ k u = .next t := by
  obtain ⟨-, hreset⟩ | ⟨-, -, hstep⟩ | ⟨row, rfl, hsame, hstep⟩ := Machine.runningStep_cases ht
  · exact .inl hreset
  · exact .inr ⟨s, rfl, h, id, hstep⟩
  · have hinv := h.alterRow (row := row) hx fun hlent => (sameBits_iff _ _).mp (hsame hlent)
    exact .inr ⟨Machine.alterRow row s, rfl, hinv, fun hsearch => hsearch.alterRow row, hstep⟩

/-- A step of a running invocation keeps the invariant if the step of its stage does. -/
theorem BlockInv.of_runningStep {x : HostInput} {k : State → StepResult} (h : BlockInv s)
    (hx : HostInput.wf x = true) (hk : ∀ {u}, u.stage = s.stage → BlockInv u → k u = .next t → BlockInv t)
    (ht : runningStep x s k = .next t) : BlockInv t := by
  obtain rfl | ⟨u, hstage, hinv, -, hstep⟩ := h.runningStep_cases hx ht
  · exact h.resetRegisters
  · exact hk hstage hinv hstep

theorem BlockInv.of_waitingStep {x : HostInput} (h : BlockInv s) (hb : s.busy = false) (hx : HostInput.wf x = true)
    (ht : waitingStep x s = .next t) : BlockInv t := by
  cases x with
  | quiet => cases ht; exact h
  | start row =>
    obtain ⟨-, rfl⟩ | ⟨-, ha, rfl⟩ := acceptStart_cases ht
    · exact h
    · exact h.startInvocation hx ha
  | bypass bytes count =>
    obtain ⟨-, rfl⟩ | ⟨-, ⟨hbytes, hcount⟩, rfl⟩ := acceptBytes_cases ht
    · exact h
    · exact h.loadBytes hbytes hcount
  | call op =>
    obtain rfl | ⟨a, rfl⟩ | ⟨row, rfl, ha, rfl⟩ | ⟨bytes, count, rfl, ⟨hbytes, hcount⟩, rfl⟩ :=
      waitingStep_call_cases hb ht
    · exact h
    · exact h.returnAnswer a
    · exact (h.startInvocation hx ha).runStages rfl
    · exact (h.loadBytes hbytes hcount).runValidate rfl
  | changeRow row =>
    cases ht
    have hlent : s.rowLent ≠ true := by
      obtain hs | hs | hs := (not_busy_iff s).mp hb <;> simp [rowLent_iff, hs]
    exact h.alterRow hx fun hl => absurd hl hlent
  | reset => cases ht; exact h.resetRegisters

/-- Settles O50: the host's input is taken, and then the step of the stage is made of updates that keep the
invariant. -/
theorem stepKeepsTheInvariant : Obligations.StepKeepsTheInvariant := by
  intro s t h ht
  have hx := nextInput_wf h.memory
  obtain ⟨-, ⟨hb, hstep⟩ | ⟨hs, hstep⟩ | ⟨hs, hstep⟩ | ⟨hs, hstep⟩⟩ := step_cases ht
  · exact h.popInput.of_waitingStep hb hx hstep
  · exact h.popInput.of_runningStep hx (fun hu hinv => hinv.of_seekingStep (hu.trans hs)) hstep
  · exact h.popInput.of_runningStep hx (fun hu hinv => hinv.of_decodingStep (hu.trans hs)) hstep
  · exact h.popInput.of_runningStep hx (fun hu hinv => hinv.of_validatingStep (hu.trans hs)) hstep

/-! The search. -/

/-- Where nothing is searched and nothing was found, there is nothing to claim. -/
theorem searchInv_of_not_found (hs : t.stage ≠ .seeking) (hf : t.found = false) : SearchInv t where
  noneBefore := fun h => absurd h hs
  firstFound := by simp [hf]

/-- Past the search the claim is about the row, the pattern and the search's result only. -/
theorem SearchInv.of_same_result (h : SearchInv s) (hs : t.stage ≠ .seeking) (hcfg : t.cfg = s.cfg)
    (hrow : t.row = s.row) (hf : t.found = s.found) (hend : t.syncEnd = s.syncEnd) : SearchInv t where
  noneBefore := fun h => absurd h hs
  firstFound := by
    rw [hf, hrow, hcfg, hend]
    exact h.firstFound

theorem searchInv_startInvocation (row : Row) (s : State) : SearchInv (startInvocation row s) where
  noneBefore := fun _ => (soundCursors_start row s.cfg.syncPattern s.cfg.syncLen).noneBefore
  firstFound := nofun

theorem searchInv_setCursors {c : Nat × Nat} (hf : s.found = false)
    (hc : SoundCursors s.row s.cfg.syncPattern s.cfg.syncLen c.1 c.2) : SearchInv (setCursors c s) where
  noneBefore := fun _ => hc.noneBefore
  firstFound := by simp [hf]

/-- A complete candidate that passed over nothing is the first occurrence. -/
theorem searchInv_enterDecoding {o : Nat}
    (hc : SoundCursors s.row s.cfg.syncPattern s.cfg.syncLen o s.cfg.syncLen) : SearchInv (enterDecoding o s) where
  noneBefore := nofun
  firstFound := fun _ => hc.firstOccurrence

theorem searchInv_dropNoSync (s : State) : SearchInv (dropNoSync s) := searchInv_of_not_found nofun rfl

theorem searchInv_runSeek (s : State) : SearchInv (runSeek s) := by
  have hc := seekCursors_sound s.row s.cfg.syncPattern s.cfg.syncLen
  obtain ⟨hend, hrun⟩ | ⟨-, hrun⟩ := runSeek_cases s
  · rw [hrun]
    rw [hend] at hc
    exact searchInv_enterDecoding (s := setCursors _ s) hc
  · rw [hrun]
    exact searchInv_dropNoSync _

theorem SearchInv.runValidate (h : SearchInv s) : SearchInv (runValidate s) := by
  obtain ⟨-, hrun⟩ | ⟨-, -, hrun⟩ | ⟨-, -, hrun⟩ := runValidate_cases s <;> rw [hrun] <;>
    exact h.of_same_result nofun rfl rfl rfl rfl

theorem searchInv_runStages (s : State) : SearchInv (runStages s) := by
  have hseek := searchInv_runSeek s
  obtain ⟨-, hrun⟩ | ⟨-, hrun⟩ := runStages_cases s
  · rw [hrun]
    exact SearchInv.runValidate (hseek.of_same_result nofun rfl rfl rfl rfl)
  · rwa [hrun]

theorem SearchInv.of_seekingStep (h : SearchInv s) (hinv : BlockInv s) (hs : s.stage = .seeking)
    (ht : seekingStep s = .next t) : SearchInv t := by
  have hsound : SoundCursors s.row s.cfg.syncPattern s.cfg.syncLen s.i s.p :=
    ⟨hinv.registers.matchedCursors hs, h.noneBefore hs⟩
  obtain ⟨hf, -⟩ := hinv.stages.seekingStart hs
  rw [seekingStep_eq hinv.registers.legal hsound.inPattern] at ht
  split at ht
  next hp =>
    cases ht
    exact searchInv_enterDecoding (hp ▸ hsound)
  next hp =>
    split at ht
    next => cases ht; exact searchInv_dropNoSync s
    next hi =>
      cases ht
      have := hsound.inPattern
      exact searchInv_setCursors hf (hsound.advance (by omega) (by omega))

theorem SearchInv.of_decodingStep (h : SearchInv s) (hs : s.stage = .decoding) (ht : decodingStep s = .next t) :
    SearchInv t := by
  obtain ⟨-, rfl⟩ | ⟨-, -, rfl⟩ | ⟨-, -, -, -, rfl⟩ | ⟨-, -, -, -, rfl⟩ := decodingStep_cases ht <;>
    exact h.of_same_result (by simp [hs]) rfl rfl rfl rfl

theorem SearchInv.of_runningStep {x : HostInput} {k : State → StepResult} (h : SearchInv s) (hinv : BlockInv s)
    (hx : HostInput.wf x = true)
    (hk : ∀ {u}, u.stage = s.stage → BlockInv u → SearchInv u → k u = .next t → SearchInv t)
    (ht : runningStep x s k = .next t) : SearchInv t := by
  obtain rfl | ⟨u, hstage, hu, hsearch, hstep⟩ := hinv.runningStep_cases hx ht
  · exact searchInv_of_not_found nofun rfl
  · exact hk hstage hu (hsearch h) hstep

theorem SearchInv.of_waitingStep {x : HostInput} (h : SearchInv s) (hb : s.busy = false)
    (ht : waitingStep x s = .next t) : SearchInv t := by
  cases x with
  | quiet => cases ht; exact h
  | start row =>
    obtain ⟨-, rfl⟩ | ⟨-, -, rfl⟩ := acceptStart_cases ht
    · exact h
    · exact searchInv_startInvocation row s
  | bypass bytes count =>
    obtain ⟨-, rfl⟩ | ⟨-, -, rfl⟩ := acceptBytes_cases ht
    · exact h
    · exact searchInv_of_not_found nofun rfl
  | call op =>
    obtain rfl | ⟨a, rfl⟩ | ⟨row, -, -, rfl⟩ | ⟨bytes, count, -, -, rfl⟩ := waitingStep_call_cases hb ht
    · exact h
    · exact h.returnAnswer a
    · exact searchInv_runStages _
    · exact SearchInv.runValidate (searchInv_of_not_found nofun rfl)
  | changeRow row => cases ht; exact h.alterRow row
  | reset => cases ht; exact searchInv_of_not_found nofun rfl

/-- Settles O51: the search moves on by sound cursors, and what follows it keeps its result. -/
theorem stepKeepsTheSearchSound : Obligations.StepKeepsTheSearchSound := by
  intro s t hinv h ht
  have hx := nextInput_wf hinv.memory
  obtain ⟨-, ⟨hb, hstep⟩ | ⟨hs, hstep⟩ | ⟨hs, hstep⟩ | ⟨hs, hstep⟩⟩ := step_cases ht
  · exact h.popInput.of_waitingStep hb hstep
  · exact h.popInput.of_runningStep hinv.popInput hx (fun hu hui hus => hus.of_seekingStep hui (hu.trans hs)) hstep
  · exact h.popInput.of_runningStep hinv.popInput hx (fun hu _ hus => hus.of_decodingStep (hu.trans hs)) hstep
  · refine h.popInput.of_runningStep hinv.popInput hx (fun hu hui hus hk => ?_) hstep
    rw [validatingStep_eq hui.registers.legal] at hk
    cases hk
    exact hus.runValidate

/-- Settles O49: after reset nothing is searched, decoded or presented, under the canonical configuration. -/
theorem invariantHoldsAtReset : Obligations.InvariantHoldsAtReset := by
  refine ⟨⟨⟨rfl, rfl, nofun, nofun, rfl, rfl⟩, ?_, by constructor <;> simp [State.reset]⟩,
    searchInv_of_not_found nofun rfl⟩
  exact registerInv_of_clear (by simp [State.reset, Config.canonical, Config.legal, Config.indexWidthOk]) rfl ⟨rfl, rfl⟩
    ⟨rfl, rfl, rfl⟩ (Nat.zero_le _) ⟨rfl, rfl, rfl⟩

/-! Faults. -/

/-- A running sequencer hands the host's input to the step of its stage, which under the invariant's bounds always has a
next state. -/
theorem BlockInv.step_of_busy (h : BlockInv s) (hb : s.busy = true) :
    ∃ k, step s = runningStep s.nextInput (Machine.popInput s) k ∧
      ∀ u : State, u.cfg = s.cfg → u.p = s.p → u.nbits = s.nbits → ∃ t, k u = .next t := by
  have hl := h.registers.legal
  have hn := h.registers.nbitsBound
  obtain ⟨-, -, hp⟩ := h.registers.cursors
  rw [step, guarded_of_legal hl]
  obtain hs | hs | hs := (busy_iff s).mp hb
  · refine ⟨seekingStep, sequencerStep_of_seeking hs, fun u hcfg hup _ => ⟨_, seekingStep_eq (hcfg ▸ hl) ?_⟩⟩
    rwa [hup, hcfg]
  · refine ⟨decodingStep, sequencerStep_of_decoding hs, fun u hcfg _ hun => ⟨_, decodingStep_eq (hcfg ▸ hl) ?_⟩⟩
    rwa [hun, hcfg]
  · exact ⟨validatingStep, sequencerStep_of_validating hs, fun u hcfg _ _ => ⟨_, validatingStep_eq (hcfg ▸ hl)⟩⟩

theorem runningStep_ne_fault {x : HostInput} {k : State → StepResult} {f : Fault} (h : ∃ t, k s = .next t)
    (hrow : ∀ row, ∃ t, k (alterRow row s) = .next t) : runningStep x s k ≠ .fault f := by
  obtain ⟨t, ht⟩ := h
  cases x with
  | changeRow row =>
    obtain ⟨u, hu⟩ := hrow row
    simp only [runningStep, hu]
    split <;> nofun
  | quiet => simp [runningStep, ht]
  | start row => simp [runningStep, ht]
  | bypass bytes count => simp [runningStep, ht]
  | call op => simp [runningStep, ht]
  | reset => simp [runningStep]

/-- A waiting step faults only where an operation called does. -/
theorem waitingStep_fault {x : HostInput} {f : Fault} (h : waitingStep x s = .fault f) :
    ∃ op, x = .call op ∧ isOperation op = true ∧ exec op s = .fault f := by
  cases x with
  | quiet => cases h
  | start row =>
    rw [waitingStep, acceptStart] at h
    split at h
    · cases h
    · split at h <;> cases h
  | bypass bytes count =>
    rw [waitingStep, acceptBytes] at h
    split at h
    · cases h
    · split at h <;> cases h
  | call op =>
    rw [waitingStep] at h
    split at h
    · exact ⟨op, rfl, ‹_›, h⟩
    · cases h
  | changeRow row => cases h
  | reset => cases h

/-- An operation called while the block waits faults in two ways only. -/
theorem exec_operation_fault {op : Instr} {f : Fault} (hl : s.cfg.legal = true) (hb : s.busy = false)
    (hop : isOperation op = true) (h : exec op s = .fault f) :
    (∃ k, op = .bitAt k ∧ s.hostRow.len ≤ k ∧ f = .rowOutOfRange) ∨
      (op = .decode ∧ s.found = false ∧ f = .syncEndUnreadable) := by
  cases op with
  | bitAt k =>
    by_cases hk : k < s.hostRow.len
    · rw [exec_bitAt_of_inRange hl hk] at h
      cases h
    · rw [exec_bitAt_of_outOfRange hl (by omega)] at h
      cases h
      exact .inl ⟨k, rfl, by omega, rfl⟩
  | decode =>
    cases hf : s.found with
    | true =>
      rw [exec_decode_of_not_busy hl hb hf] at h
      cases h
    | false =>
      rw [exec_decode_of_not_found hl hf (.inr hb)] at h
      cases h
      exact .inr ⟨rfl, rfl, rfl⟩
  | seek =>
    rw [exec_seek_of_not_busy hl hb] at h
    cases h
  | validateExtract =>
    rw [exec_validateExtract_of_not_busy hl hb] at h
    cases h
  | decodeRow row =>
    simp only [exec, execDecodeRow, guarded_of_legal hl, hb, Bool.false_eq_true, if_false] at h
    split at h <;> cases h
  | validateBytes bytes count =>
    simp only [exec, execValidateBytes, guarded_of_legal hl, hb, Bool.false_eq_true, if_false] at h
    split at h <;> cases h
  | pairFall => cases hop
  | pairRise => cases hop
  | pairInv00 => cases hop
  | pairInv11 => cases hop
  | framePower _ _ _ _ _ _ _ => cases hop
  | frameOther _ _ => cases hop

/-- Settles O52: a running step always has a next state or is refused, and a waiting one faults by the call it makes. -/
theorem stepFaultsOnlyOnABadCall : Obligations.StepFaultsOnlyOnABadCall := by
  intro s hinv
  refine ⟨fun f hfault => ?_, fun hb hu => ?_⟩
  · cases hb : s.busy with
    | true =>
      obtain ⟨k, hstep, hk⟩ := hinv.step_of_busy hb
      rw [hstep] at hfault
      exact absurd hfault
        (runningStep_ne_fault (hk _ rfl rfl rfl) fun row => hk (alterRow row (popInput s)) rfl rfl rfl)
    | false =>
      have hl := hinv.registers.legal
      rw [step_of_waiting hl hb] at hfault
      obtain ⟨op, hx, hop, hexec⟩ := waitingStep_fault hfault
      obtain ⟨k, rfl, hlen, hf⟩ | ⟨rfl, hfound, hf⟩ := exec_operation_fault (s := popInput s) hl hb hop hexec
      · exact ⟨rfl, .inl ⟨k, hx, hlen, hf⟩⟩
      · exact ⟨rfl, .inr ⟨hx, hfound, hf⟩⟩
  · obtain ⟨k, hstep, hk⟩ := hinv.step_of_busy hb
    rw [hstep, runningStep_of_undisturbed hu]
    exact hk (popInput s) rfl rfl rfl

end Machine
end Sys2Proof
